-- ==== Sys2Proof/Word.lean ====
section
/-! DEFINITION. The word types of ARITH-CORE-1: bytes of a stream (R61, R62), 32-bit command words,
codewords and binary32 patterns (R80, R130, R33), 64-bit X registers (R31), and the numbers a command
word carries (R83). -/

namespace Sys2Proof

/-- One byte of the IN or OUT stream (R61, R62). -/
abbrev Byte := BitVec 8

/-- A 32-bit pattern: a command word (R80), a codeword (R130) or a binary32 datum (R33). -/
abbrev Word32 := BitVec 32

/-- A 64-bit pattern: the contents of an X register or of a control register (R31, R37). -/
abbrev Word64 := BitVec 64

/-- A register number 0..31, as the 5-bit RD and RS fields give it (R83). -/
abbrev Reg := Fin 32

/-- A WIDTH or LSB immediate, an unsigned 7-bit number 0..127 (R83). -/
abbrev Imm7 := Fin 128

end Sys2Proof
end

