-- ==== Sys2Proof/Syntax.lean ====
section
/-! DEFINITION. The 22 commands of ARITH-CORE-1 (R84), one constructor per row of
spec/opcode_table.json, in the table's order. Operands stand in assembler order, destination first
(R88). A field that R84 gives as "0" is no operand. -/

namespace Sys2Proof

/-- A command of R84 with its operand values. -/
inductive Instr where
  /-- `BF.FITSU xd, xs, width` (R110). -/
  | bfFitsU (xd xs : Reg) (width : Imm7)
  /-- `BF.FITSS xd, xs, width` (R111). -/
  | bfFitsS (xd xs : Reg) (width : Imm7)
  /-- `BF.GETU xd, xs, width, lsb` (R112). -/
  | bfGetU (xd xs : Reg) (width lsb : Imm7)
  /-- `BF.GETS xd, xs, width, lsb` (R113). -/
  | bfGetS (xd xs : Reg) (width lsb : Imm7)
  /-- `BF.SETU xd, xs, width, lsb`: xd is the word and the destination (R114). -/
  | bfSetU (xd xs : Reg) (width lsb : Imm7)
  /-- `BF.SETS xd, xs, width, lsb`: xd is the word and the destination (R115). -/
  | bfSetS (xd xs : Reg) (width lsb : Imm7)
  /-- `CW.PACK xd, xs`: xs is the base of XG(6) (R135). -/
  | cwPack (xd xs : Reg)
  /-- `CW.UNPACK xd, xs`: xd is the base of XG(6) (R136). -/
  | cwUnpack (xd xs : Reg)
  /-- `CW.EMIT xs` (R137). -/
  | cwEmit (xs : Reg)
  /-- `CW.FETCH xd` (R138). -/
  | cwFetch (xd : Reg)
  /-- `Q.FA xd, fs` (R151). -/
  | qFA (xd fs : Reg)
  /-- `Q.FBCD xd, fs` (R152). -/
  | qFBCD (xd fs : Reg)
  /-- `Q.IA fd, xs` (R153). -/
  | qIA (fd xs : Reg)
  /-- `Q.IBCD fd, xs` (R154). -/
  | qIBCD (fd xs : Reg)
  /-- `Q.CIDX xd, fs` (R157). -/
  | qCIdx (xd fs : Reg)
  /-- `Q.CVAL fd, xs` (R158). -/
  | qCVal (fd xs : Reg)
  /-- `DCT.FWD fd, fs`: fd is the base of FG(6), fs the base of FG(12) (R174). -/
  | dctFwd (fd fs : Reg)
  /-- `DCT.INV fd, fs`: fd is the base of FG(12), fs the base of FG(6) (R175). -/
  | dctInv (fd fs : Reg)
  /-- `CC.FWD fd, xs`: fd is the base of FG(3), xs the base of XG(3) (R182). -/
  | ccFwd (fd xs : Reg)
  /-- `CC.INV xd, fs`: xd is the base of XG(3), fs the base of FG(3) (R183). -/
  | ccInv (xd fs : Reg)
  /-- `CR.RD xd, crn`: crn is the control register number in the RS field (R190). -/
  | crRd (xd crn : Reg)
  /-- `CR.WR crn, xs`: crn is the control register number in the RD field (R191). -/
  | crWr (crn xs : Reg)
  deriving DecidableEq, Repr

end Sys2Proof
end

