-- ==== Sys2Proof/WellFormed.lean ====
section
/-! DEFINITION. Which terms of `Instr` are commands: conditions 4 and 5 of R85, the two kinds of check
that depend on operand values. Conditions 1 to 3 are about words, and the decoder applies them. -/

namespace Sys2Proof

/-- A register group of `n` registers with base `base` lies inside its file (R16). -/
def groupFits (base : Reg) (n : Nat) : Bool := decide (base.val + n ≤ 32)

/-- The term is a command of R84: its groups fit (R85 condition 4) and its control register number
is one the command may name (R85 condition 5). -/
def Instr.wf : Instr → Bool
  | .bfFitsU _ _ _ => true
  | .bfFitsS _ _ _ => true
  | .bfGetU _ _ _ _ => true
  | .bfGetS _ _ _ _ => true
  | .bfSetU _ _ _ _ => true
  | .bfSetS _ _ _ _ => true
  | .cwPack _ xs => groupFits xs 6
  | .cwUnpack xd _ => groupFits xd 6
  | .cwEmit _ => true
  | .cwFetch _ => true
  | .qFA _ _ => true
  | .qFBCD _ _ => true
  | .qIA _ _ => true
  | .qIBCD _ _ => true
  | .qCIdx _ _ => true
  | .qCVal _ _ => true
  | .dctFwd fd fs => groupFits fd 6 && groupFits fs 12
  | .dctInv fd fs => groupFits fd 12 && groupFits fs 6
  | .ccFwd fd xs => groupFits fd 3 && groupFits xs 3
  | .ccInv xd fs => groupFits xd 3 && groupFits fs 3
  | .crRd _ crn => decide (crn.val ≤ 4)
  | .crWr crn _ => decide (crn.val = 1)

end Sys2Proof
end

