-- ==== Sys2Proof/Decode.lean ====
section
/-! DEFINITION. The decoder of R91, total on 32-bit words, and the encoder of R90. A word that spells no
command decodes to `none`; the host port turns that into IllegalCommand (R85). -/

namespace Sys2Proof

/-- The slice `w[lo+len-1 : lo]` as an unsigned number (R11). -/
def wordField (w : Word32) (lo len : Nat) : Nat := w.toNat / 2 ^ lo % 2 ^ len

/-- A 5-bit register field at bit `lo` (R81, R82). -/
def regField (w : Word32) (lo : Nat) : Reg := ⟨wordField w lo 5, Nat.mod_lt _ (by decide)⟩

/-- A 7-bit immediate field at bit `lo` (R81). -/
def immField (w : Word32) (lo : Nat) : Imm7 := ⟨wordField w lo 7, Nat.mod_lt _ (by decide)⟩

/-- OPC, bits 5:0 (R81, R82). -/
def opcField (w : Word32) : Nat := wordField w 0 6

/-- RD, bits 10:6 (R81, R82). -/
def rdField (w : Word32) : Reg := regField w 6

/-- RS, bits 15:11 (R81, R82). -/
def rsField (w : Word32) : Reg := regField w 11

/-- WIDTH, bits 22:16 of format B (R81). -/
def widthField (w : Word32) : Imm7 := immField w 16

/-- LSB, bits 29:23 of format B (R81). -/
def lsbField (w : Word32) : Imm7 := immField w 23

/-- A format B command, its reserved bits 31:30 checked (R85 condition 2). -/
def formatB (w : Word32) (i : Instr) : Option Instr :=
  if wordField w 30 2 = 0 then some i else none

/-- A format B command whose LSB field is reserved too: BF.FITSU and BF.FITSS (R81). -/
def formatBNoLsb (w : Word32) (i : Instr) : Option Instr :=
  if (lsbField w).val = 0 then formatB w i else none

/-- A format R command, its reserved bits 31:16 checked (R85 condition 2). -/
def formatR (w : Word32) (i : Instr) : Option Instr :=
  if wordField w 16 16 = 0 then some i else none

/-- The command the opcode and the fields spell, conditions 1 to 3 of R85 checked. -/
def decodeFields (w : Word32) : Option Instr :=
  match opcField w with
  | 0x01 => formatBNoLsb w (.bfFitsU (rdField w) (rsField w) (widthField w))
  | 0x02 => formatBNoLsb w (.bfFitsS (rdField w) (rsField w) (widthField w))
  | 0x03 => formatB w (.bfGetU (rdField w) (rsField w) (widthField w) (lsbField w))
  | 0x04 => formatB w (.bfGetS (rdField w) (rsField w) (widthField w) (lsbField w))
  | 0x05 => formatB w (.bfSetU (rdField w) (rsField w) (widthField w) (lsbField w))
  | 0x06 => formatB w (.bfSetS (rdField w) (rsField w) (widthField w) (lsbField w))
  | 0x08 => formatR w (.cwPack (rdField w) (rsField w))
  | 0x09 => formatR w (.cwUnpack (rdField w) (rsField w))
  | 0x0A => if (rdField w).val = 0 then formatR w (.cwEmit (rsField w)) else none
  | 0x0B => if (rsField w).val = 0 then formatR w (.cwFetch (rdField w)) else none
  | 0x10 => formatR w (.qFA (rdField w) (rsField w))
  | 0x11 => formatR w (.qFBCD (rdField w) (rsField w))
  | 0x12 => formatR w (.qIA (rdField w) (rsField w))
  | 0x13 => formatR w (.qIBCD (rdField w) (rsField w))
  | 0x14 => formatR w (.qCIdx (rdField w) (rsField w))
  | 0x15 => formatR w (.qCVal (rdField w) (rsField w))
  | 0x18 => formatR w (.dctFwd (rdField w) (rsField w))
  | 0x19 => formatR w (.dctInv (rdField w) (rsField w))
  | 0x1C => formatR w (.ccFwd (rdField w) (rsField w))
  | 0x1D => formatR w (.ccInv (rdField w) (rsField w))
  | 0x20 => formatR w (.crRd (rdField w) (rsField w))
  | 0x21 => formatR w (.crWr (rdField w) (rsField w))
  | _ => none

/-- The decode procedure of R91: the command a word spells, or `none` for an illegal word (R86). -/
def decode (w : Word32) : Option Instr := (decodeFields w).filter Instr.wf

/-- A format B word: `OPC | RD << 6 | RS << 11 | WIDTH << 16 | LSB << 23` (R90). -/
def encodeB (opc : Nat) (rd rs : Reg) (width lsb : Imm7) : Word32 :=
  BitVec.ofNat 32
    (opc ||| rd.val <<< 6 ||| rs.val <<< 11 ||| width.val <<< 16 ||| lsb.val <<< 23)

/-- A format R word: `OPC | RD << 6 | RS << 11` (R90). -/
def encodeR (opc : Nat) (rd rs : Reg) : Word32 :=
  BitVec.ofNat 32 (opc ||| rd.val <<< 6 ||| rs.val <<< 11)

/-- The opcode of R84. -/
def Instr.opcode : Instr → Nat
  | .bfFitsU _ _ _ => 0x01
  | .bfFitsS _ _ _ => 0x02
  | .bfGetU _ _ _ _ => 0x03
  | .bfGetS _ _ _ _ => 0x04
  | .bfSetU _ _ _ _ => 0x05
  | .bfSetS _ _ _ _ => 0x06
  | .cwPack _ _ => 0x08
  | .cwUnpack _ _ => 0x09
  | .cwEmit _ => 0x0A
  | .cwFetch _ => 0x0B
  | .qFA _ _ => 0x10
  | .qFBCD _ _ => 0x11
  | .qIA _ _ => 0x12
  | .qIBCD _ _ => 0x13
  | .qCIdx _ _ => 0x14
  | .qCVal _ _ => 0x15
  | .dctFwd _ _ => 0x18
  | .dctInv _ _ => 0x19
  | .ccFwd _ _ => 0x1C
  | .ccInv _ _ => 0x1D
  | .crRd _ _ => 0x20
  | .crWr _ _ => 0x21

/-- The command word of R90. An unused RD, RS or LSB field is 0. -/
def encode (i : Instr) : Word32 :=
  match i with
  | .bfFitsU xd xs width => encodeB i.opcode xd xs width 0
  | .bfFitsS xd xs width => encodeB i.opcode xd xs width 0
  | .bfGetU xd xs width lsb => encodeB i.opcode xd xs width lsb
  | .bfGetS xd xs width lsb => encodeB i.opcode xd xs width lsb
  | .bfSetU xd xs width lsb => encodeB i.opcode xd xs width lsb
  | .bfSetS xd xs width lsb => encodeB i.opcode xd xs width lsb
  | .cwPack xd xs => encodeR i.opcode xd xs
  | .cwUnpack xd xs => encodeR i.opcode xd xs
  | .cwEmit xs => encodeR i.opcode 0 xs
  | .cwFetch xd => encodeR i.opcode xd 0
  | .qFA xd fs => encodeR i.opcode xd fs
  | .qFBCD xd fs => encodeR i.opcode xd fs
  | .qIA fd xs => encodeR i.opcode fd xs
  | .qIBCD fd xs => encodeR i.opcode fd xs
  | .qCIdx xd fs => encodeR i.opcode xd fs
  | .qCVal fd xs => encodeR i.opcode fd xs
  | .dctFwd fd fs => encodeR i.opcode fd fs
  | .dctInv fd fs => encodeR i.opcode fd fs
  | .ccFwd fd xs => encodeR i.opcode fd xs
  | .ccInv xd fs => encodeR i.opcode xd fs
  | .crRd xd crn => encodeR i.opcode xd crn
  | .crWr crn xs => encodeR i.opcode crn xs

/-- The host's reading of a word numbered as spec/opcode_table.json numbers its bits. Every row is one
32-bit word (R80), so only the low `nbits` bits can be set. -/
def decodeTableWord (nbits w : Nat) : Option Instr := decode (BitVec.ofNat 32 (w % 2 ^ nbits))

end Sys2Proof
end

