-- ==== Sys2Proof/Config.lean ====
section
/-! DEFINITION. The one configuration parameter of the unit, `CHROMA_TABLE` (R8, R155): 16 binary32
patterns, fixed for the life of the unit. The model holds it as plain data in State, so that every
statement covers every table and a run can still be evaluated (notes/assumptions/3.md). The model has
no free value: the spec leaves no result of a command open. -/

namespace Sys2Proof

/-- What an implementation of the unit fixes (R8, last line): the chroma table only. -/
structure Config where
  /-- `CHROMA_TABLE`, entries `T[0]` to `T[15]` (R155). -/
  chromaTable : Vector Word32 16
  deriving DecidableEq, Repr

/-- The default `CHROMA_TABLE` of R155. -/
def Config.default : Config where
  chromaTable := #v[
    0xBEB33333#32, 0xBE4CCCCD#32, 0xBE19999A#32, 0xBDCCCCCD#32,
    0xBD9DB22D#32, 0xBD6147AE#32, 0xBD072B02#32, 0xBC343958#32,
    0x3C343958#32, 0x3D072B02#32, 0x3D6147AE#32, 0x3D9DB22D#32,
    0x3DCCCCCD#32, 0x3E19999A#32, 0x3E4CCCCD#32, 0x3EB33333#32]

end Sys2Proof
end

