-- ==== Sys2Proof/Machine/State.lean ====
section
/-! DEFINITION. The state of the unit (R30) as plain data, the model's own records of its dealings with
the host, and the state after reset (R46). STATUS, INCOUNT and the run state are not stored a second
time: `State.status`, `State.inCount` and `State.runState` (Machine/Ops.lean, Machine/Flags.lean)
compute them from the fields the spec ties them to (R38, R40, R43). -/

namespace Sys2Proof.Machine

/-- The four error kinds of R200. -/
inductive ErrKind where
  | preconditionViolation
  | overflowError
  | truncatedStreamError
  | illegalCommand
  deriving DecidableEq, Repr

/-- A general register by file and number: X0..X31 (R31), F0..F31 (R33). -/
inductive RegName where
  | x (r : Reg)
  | f (r : Reg)
  deriving DecidableEq, Repr

/-- The control registers CR0 to CR4 (R37). -/
inductive CReg where
  | status
  | denom
  | inCount
  | outCount
  | faultCmd
  deriving DecidableEq, Repr

/-- The run state of R43. -/
inductive RunState where
  | idle
  | waiting
  | aborted
  deriving DecidableEq, Repr

/-- The model fault of R34. No step stops with it: a register nothing has written since reset holds the
value notes/assumptions/1.md names, the run goes on, and the read is RECORDED in `State.faults`. -/
inductive Fault where
  /-- A command or the host read register `r` before anything wrote it since reset (R34). Recorded by
  `State.noteReads`. The value read is the model's choice, so going on is UNSAFE; the record lets a
  claim exclude such runs (notes/assumptions/1.md, notes/assumptions/2.md). -/
  | unwrittenRead (r : RegName)
  deriving DecidableEq, Repr

/-- Why a step answers nothing: the host made a move R211 does not give it in this state ("In a state
not listed in its row, an operation has no move"). No command of R84 is refused. -/
inductive Refusal where
  /-- An arm of exec without a meaning. Safe. No arm of this model uses it. -/
  | notModelled (mnemonic : String)
  /-- H.WRX, H.WRF, H.RDX or H.RDF while the unit is WAITING (R211, U15). Raised by `hostMove`. Safe. -/
  | registerAccessWhileWaiting
  /-- H.PUSHIN after H.CLOSEIN (R211, U15). Raised by `hostMove`. Safe. -/
  | pushAfterClose
  /-- A second H.CLOSEIN (R211, U15). Raised by `hostMove`. Safe. -/
  | secondClose
  /-- H.PUSHIN that would make INCOUNT wrap (U17). Raised by `hostMove`. Safe. -/
  | inCountWouldWrap
  deriving DecidableEq, Repr

/-- The host port operations of R211. -/
inductive HostOp where
  /-- `H.RESET`. -/
  | reset
  /-- `H.ISSUE(word)`. -/
  | issue (word : Word32)
  /-- `H.WRX(i, v)`. -/
  | writeX (i : Reg) (v : Word64)
  /-- `H.WRF(i, b)`. -/
  | writeF (i : Reg) (b : Word32)
  /-- `H.RDX(i)`. -/
  | readX (i : Reg)
  /-- `H.RDF(i)`. -/
  | readF (i : Reg)
  /-- `H.RDCR(n)`, n in 0..4. -/
  | readCR (n : CReg)
  /-- `H.PUSHIN(byte)`. -/
  | pushIn (byte : Byte)
  /-- `H.CLOSEIN`. -/
  | closeIn
  /-- `H.DRAINOUT`. -/
  | drainOut
  deriving DecidableEq, Repr

/-- What the host port answers (the response column of R211). -/
inductive Answer where
  /-- `DONE`. -/
  | done
  /-- `ERROR(K)`. -/
  | error (k : ErrKind)
  /-- `REFUSED`. -/
  | refused
  /-- The value of an X register (H.RDX). -/
  | xValue (v : Word64)
  /-- The value of an F register (H.RDF). -/
  | fValue (b : Word32)
  /-- The value of a control register (H.RDCR). -/
  | crValue (v : Word64)
  /-- The byte H.DRAINOUT removed. -/
  | outByte (b : Byte)
  /-- `EMPTY`: H.DRAINOUT found no byte. -/
  | empty
  deriving DecidableEq, Repr

/-- The whole state. The fields down to `portWords` are the unit's and its port's (R30, R211); `config`
is the parameter of R8; the last five are the model's own and no state of the unit. -/
structure State where
  /-- Integer register file X0..X31 (R31). -/
  x : Vector Word64 32
  /-- Real-valued register file F0..F31, binary32 patterns (R33). -/
  f : Vector Word32 32
  /-- STATUS.ERR: `none` is code 0, NONE (R38). -/
  err : Option ErrKind
  /-- DENOM, CR1 (R39). -/
  denom : Word64
  /-- OUTCOUNT, CR3 (R41). -/
  outCount : Word64
  /-- FAULTCMD, CR4, bits 31:0; bits 63:32 read as 0 (R42). -/
  faultCmd : Word32
  /-- The IN stream, oldest byte first (R61). INCOUNT is its length (R40). -/
  inStream : List Byte
  /-- The IN stream's closed flag, STATUS.INCLOSED (R61, R38). -/
  inClosed : Bool
  /-- The OUT stream's bytes not yet drained, oldest first (R62). -/
  outStream : List Byte
  /-- The held CW.FETCH, by its destination register. STATUS.WAITING is 1 while there is one (R43). -/
  held : Option Reg
  /-- The words the host port holds for the unit, oldest first (R211, H.ISSUE while WAITING). -/
  portWords : List Word32
  /-- The configuration parameter (R8). No step changes it. -/
  config : Config
  /-- MODEL'S OWN: which X registers have been written since reset (R34). -/
  xWritten : Vector Bool 32
  /-- MODEL'S OWN: which F registers have been written since reset (R34). -/
  fWritten : Vector Bool 32
  /-- MODEL'S OWN: the host's coming operations, next first. -/
  hostOps : List HostOp
  /-- MODEL'S OWN: the responses the host port has given, oldest first (R211). -/
  answers : List Answer
  /-- MODEL'S OWN: the UnwrittenRead faults recorded, oldest first (R34). -/
  faults : List Fault
  deriving DecidableEq, Repr

/-- The unit right after reset (R46), with the default chroma table (R155), no host operation coming and
nothing answered. X and F are unspecified there; the model names 0 (notes/assumptions/1.md) and marks
every register unwritten. -/
def State.reset : State where
  x := Vector.replicate 32 0#64
  f := Vector.replicate 32 0#32
  err := none
  denom := 0#64
  outCount := 0#64
  faultCmd := 0#32
  inStream := []
  inClosed := false
  outStream := []
  held := none
  portWords := []
  config := Config.default
  xWritten := Vector.replicate 32 false
  fWritten := Vector.replicate 32 false
  hostOps := []
  answers := []
  faults := []

/-- What a command or a host move answers. -/
abbrev Result := Host.Outcome State Fault Refusal

end Sys2Proof.Machine
end

