-- ==== Sys2Proof/Machine/Ops.lean ====
section
/-! DEFINITION. The shared operations over registers, streams and the host port's answers; error entry
(R203) and reset, the only way out of it (R206, R230); and the frame every command runs in (R15). -/

namespace Sys2Proof.Machine

namespace State

/-! ### Registers (R13, R31, R33) -/

/-- `X[r]`. -/
def readX (s : State) (r : Reg) : Word64 := s.x[r]

/-- `F[r]`. -/
def readF (s : State) (r : Reg) : Word32 := s.f[r]

/-- `X[r] <- v`. The register counts as written from here on (R34). -/
def writeX (s : State) (r : Reg) (v : Word64) : State :=
  { s with x := s.x.set r.val v r.isLt, xWritten := s.xWritten.set r.val true r.isLt }

/-- `F[r] <- b`. The register counts as written from here on (R34). -/
def writeF (s : State) (r : Reg) (b : Word32) : State :=
  { s with f := s.f.set r.val b r.isLt, fWritten := s.fWritten.set r.val true r.isLt }

/-- Whether anything has written the register since reset (R34). -/
def written (s : State) : RegName → Bool
  | .x r => s.xWritten[r]
  | .f r => s.fWritten[r]

/-- Record `UnwrittenRead` for each register of `rs` that nothing has written since reset (R34). The
record changes nothing else: "it does not change STATUS". -/
def noteReads (s : State) (rs : List RegName) : State :=
  { s with faults := s.faults ++ (rs.filter fun r => !s.written r).map .unwrittenRead }

/-! ### Run state and answers (R43, R211) -/

/-- The run state of R43: ABORTED exactly when ERR != 0, WAITING while a CW.FETCH is held. -/
def runState (s : State) : RunState :=
  if s.err.isSome then .aborted else if s.held.isSome then .waiting else .idle

/-- The host port gives a response (R211). -/
def answer (s : State) (a : Answer) : State := { s with answers := s.answers ++ [a] }

/-! ### Streams (R61, R62) -/

/-- `INCOUNT`: the bytes pushed and not yet consumed (R40). -/
def inCount (s : State) : Word64 := BitVec.ofNat 64 s.inStream.length

/-- `OutPush(b0, b1, b2, b3)` (R62), with the count of R41. -/
def outPush (s : State) (b0 b1 b2 b3 : Byte) : State :=
  { s with outStream := s.outStream ++ [b0, b1, b2, b3], outCount := s.outCount + 4 }

/-! ### Error entry and reset -/

/-- Error entry of R203 for the command word `word`: ERR, FAULTCMD and WAITING, the port's answer, and
nothing else. The run state is ABORTED because ERR is (R43). -/
def errorEntry (s : State) (k : ErrKind) (word : Word32) : State :=
  { s with err := some k, faultCmd := word, held := none, answers := s.answers ++ [.error k] }

/-- `H.RESET` (R230, R231): every piece of the unit's state takes its value of R46, the configuration
stays, a held CW.FETCH and the words at the port are gone. The model's records of its dealings with the
host stay, as they are no state of the unit. -/
def hostReset (s : State) : State :=
  { State.reset with
    config := s.config, hostOps := s.hostOps, answers := s.answers, faults := s.faults }

end State

/-! ### The run of one command -/

/-- The order of R15 and R202 for the command `i`: its encoding is checked (R85), then its source
registers `reads` are read, then `body` evaluates every check and result and writes the destinations;
the port answers `DONE`, or the error of the failed check is entered with the command's own word. -/
def runCommand (i : Instr) (reads : List RegName) (body : State → Except ErrKind State) (s : State) :
    Result :=
  if i.wf then
    match body (s.noteReads reads) with
    | .ok t => .next (t.answer .done)
    | .error k => .next ((s.noteReads reads).errorEntry k (encode i))
  else .next (s.errorEntry .illegalCommand (encode i))

end Sys2Proof.Machine
end

