-- ==== Sys2Proof/Machine/Flags.lean ====
section
/-! DEFINITION. The unit has no flags or condition codes (R36). What stands in their place is here: the
integer a predicate returns, the STATUS word (R38), and the control-register view (R37). -/

namespace Sys2Proof.Machine

/-- A predicate's result in an X register: 1 for true, 0 for false (R36, R110). -/
def predicateWord (b : Bool) : Word64 := if b then 1#64 else 0#64

/-- The STATUS.ERR code of an error kind (R200). -/
def ErrKind.code : ErrKind → Nat
  | .preconditionViolation => 1
  | .overflowError => 2
  | .truncatedStreamError => 3
  | .illegalCommand => 4

/-- STATUS.ERR, bits 2:0: 0 for NONE (R38). -/
def errCode : Option ErrKind → Nat
  | none => 0
  | some k => k.code

/-- The control register a number names, `none` for the reserved numbers 5 to 31 (R37). -/
def CReg.ofNumber : Nat → Option CReg
  | 0 => some .status
  | 1 => some .denom
  | 2 => some .inCount
  | 3 => some .outCount
  | 4 => some .faultCmd
  | _ => none

namespace State

/-- STATUS (CR0): ERR in bits 2:0, WAITING in bit 3, INCLOSED in bit 4, bits 63:5 read as 0 (R38). -/
def status (s : State) : Word64 :=
  BitVec.ofNat 64 (errCode s.err + 8 * s.held.isSome.toNat + 16 * s.inClosed.toNat)

/-- `CR[n]`, live (R37, R211). -/
def readCR (s : State) : CReg → Word64
  | .status => s.status
  | .denom => s.denom
  | .inCount => s.inCount
  | .outCount => s.outCount
  | .faultCmd => s.faultCmd.setWidth 64

end State

end Sys2Proof.Machine
end

