-- ==== Sys2Proof/Machine/Operands.lean ====
section
/-! DEFINITION. Every operand form: the readings of a 64-bit pattern (R12), the forms a result is
written in (R32), and register groups (R16, R45). Immediates are plain numbers (R83). -/

namespace Sys2Proof.Machine

/-- `uint(v)`, in 0..2^64-1 (R12). -/
def uint (v : Word64) : Nat := v.toNat

/-- `sint(v)`, in -2^63..2^63-1 (R12). -/
def sint (v : Word64) : Int := v.toInt

/-- `zext_64` of an unsigned result (R12, R32). -/
def zext64 (n : Nat) : Word64 := BitVec.ofNat 64 n

/-- `u64(n)`: the pattern `n mod 2^64` of a signed result (R12, R32). -/
def u64 (n : Int) : Word64 := BitVec.ofInt 64 n

/-- Member `k` of the group with base `base` (R16). A group that fits its file never wraps. -/
def groupReg (base : Reg) (k : Nat) : Reg := ⟨(base.val + k) % 32, Nat.mod_lt _ (by decide)⟩

/-- The names of `XG(base, n)` (R16). -/
def xGroup (base : Reg) (n : Nat) : List RegName := (List.range n).map fun k => .x (groupReg base k)

/-- The names of `FG(base, n)` (R16). -/
def fGroup (base : Reg) (n : Nat) : List RegName := (List.range n).map fun k => .f (groupReg base k)

namespace State

/-- Write the values to X[base], X[base+1], ... (R16). -/
def writeXs (s : State) (base : Reg) : List Word64 → State
  | [] => s
  | v :: vs => (s.writeX base v).writeXs (groupReg base 1) vs

/-- Write the patterns to F[base], F[base+1], ... (R16). -/
def writeFs (s : State) (base : Reg) : List Word32 → State
  | [] => s
  | b :: bs => (s.writeF base b).writeFs (groupReg base 1) bs

end State

end Sys2Proof.Machine
end

