-- ==== Sys2Proof/Machine/BitField.lean ====
section
/-! DEFINITION. The BitField primitives (R100 to R106) and the six commands that expose them (R109 to
R115). -/

namespace Sys2Proof.Machine

/-! ### Primitives -/

/-- `PRE(w, lsb)` (R100). -/
def fieldPre (w lsb : Nat) : Bool := decide (w ≤ 64) && decide (w + lsb ≤ 64)

/-- `fitsU(v, w)` (R101). -/
def fitsU (v w : Nat) : Except ErrKind Bool :=
  if 64 < w then .error .preconditionViolation
  else if w = 0 then .ok false
  else .ok (decide (v < 2 ^ w))

/-- `fitsS(v, w)` (R102). -/
def fitsS (v : Int) (w : Nat) : Except ErrKind Bool :=
  if 64 < w then .error .preconditionViolation
  else if w = 0 then .ok false
  else .ok (decide (-2 ^ (w - 1) ≤ v) && decide (v ≤ 2 ^ (w - 1) - 1))

/-- `getU(word, w, lsb)` (R103). -/
def getU (word : Word64) (w lsb : Nat) : Except ErrKind Nat :=
  if !fieldPre w lsb then .error .preconditionViolation
  else if w = 0 then .ok 0
  else .ok ((word.toNat >>> lsb) &&& (2 ^ w - 1))

/-- `getS(word, w, lsb)` (R104). -/
def getS (word : Word64) (w lsb : Nat) : Except ErrKind Int :=
  match getU word w lsb with
  | .error k => .error k
  | .ok u =>
    if w = 0 then .ok 0
    else if u.testBit (w - 1) then .ok ((u : Int) - 2 ^ w)
    else .ok (u : Int)

/-- The field's mask `(2^w - 1) << lsb` (R105). -/
def fieldMask (w lsb : Nat) : Word64 := BitVec.ofNat 64 ((2 ^ w - 1) <<< lsb)

/-- `(word & ~mask) | (bits << lsb)`: the last line of R105 and R106. -/
def insertField (word : Word64) (w lsb bits : Nat) : Word64 :=
  (word &&& ~~~(fieldMask w lsb)) ||| BitVec.ofNat 64 (bits <<< lsb)

/-- `setU(word, w, lsb, v)` (R105). -/
def setU (word : Word64) (w lsb v : Nat) : Except ErrKind Word64 :=
  if !fieldPre w lsb then .error .preconditionViolation
  else
    match fitsU v w with
    | .error k => .error k
    | .ok false => .error .overflowError
    | .ok true => .ok (insertField word w lsb v)

/-- `setS(word, w, lsb, v)` (R106). -/
def setS (word : Word64) (w lsb : Nat) (v : Int) : Except ErrKind Word64 :=
  if !fieldPre w lsb then .error .preconditionViolation
  else
    match fitsS v w with
    | .error k => .error k
    | .ok false => .error .overflowError
    | .ok true => .ok (insertField word w lsb (v % 2 ^ w).toNat)

/-! ### Commands -/

/-- BF.FITSU (R110). -/
def execBfFitsU (xd xs : Reg) (width : Imm7) (s : State) : Result :=
  runCommand (.bfFitsU xd xs width) [.x xs]
    (fun t => (fitsU (uint (t.readX xs)) width.val).map fun b => t.writeX xd (predicateWord b)) s

/-- BF.FITSS (R111). -/
def execBfFitsS (xd xs : Reg) (width : Imm7) (s : State) : Result :=
  runCommand (.bfFitsS xd xs width) [.x xs]
    (fun t => (fitsS (sint (t.readX xs)) width.val).map fun b => t.writeX xd (predicateWord b)) s

/-- BF.GETU (R112). -/
def execBfGetU (xd xs : Reg) (width lsb : Imm7) (s : State) : Result :=
  runCommand (.bfGetU xd xs width lsb) [.x xs]
    (fun t => (getU (t.readX xs) width.val lsb.val).map fun u => t.writeX xd (zext64 u)) s

/-- BF.GETS (R113). -/
def execBfGetS (xd xs : Reg) (width lsb : Imm7) (s : State) : Result :=
  runCommand (.bfGetS xd xs width lsb) [.x xs]
    (fun t => (getS (t.readX xs) width.val lsb.val).map fun n => t.writeX xd (u64 n)) s

/-- BF.SETU (R114): X[xd] is the word and the destination. -/
def execBfSetU (xd xs : Reg) (width lsb : Imm7) (s : State) : Result :=
  runCommand (.bfSetU xd xs width lsb) [.x xd, .x xs]
    (fun t =>
      (setU (t.readX xd) width.val lsb.val (uint (t.readX xs))).map fun word => t.writeX xd word) s

/-- BF.SETS (R115): X[xd] is the word and the destination. -/
def execBfSetS (xd xs : Reg) (width lsb : Imm7) (s : State) : Result :=
  runCommand (.bfSetS xd xs width lsb) [.x xd, .x xs]
    (fun t =>
      (setS (t.readX xd) width.val lsb.val (sint (t.readX xs))).map fun word => t.writeX xd word) s

end Sys2Proof.Machine
end

