-- ==== Sys2Proof/Machine/Codec.lean ====
section
/-! DEFINITION. The CodewordCodec: the codeword layout (R130 to R132), its four stream bytes (R134), and
the commands CW.PACK, CW.UNPACK, CW.EMIT and CW.FETCH (R135 to R138). -/

namespace Sys2Proof.Machine

/-- The source's ScaledDctBlock: the six quantized components of a block (R17, R45). -/
structure ScaledDctBlock where
  a : Nat
  b : Int
  c : Int
  d : Int
  /-- chroma-index-1, the pB index (R130). -/
  i1 : Nat
  /-- chroma-index-0, the pR index (R130). -/
  i0 : Nat
  deriving DecidableEq, Repr

/-- `pack` (R131): six insertions from word 0, in the source's order. -/
def pack (k : ScaledDctBlock) : Except ErrKind Word64 :=
  ((((((setU 0#64 9 23 k.a).bind
    fun w => setS w 5 18 k.b).bind
    fun w => setS w 5 13 k.c).bind
    fun w => setS w 5 8 k.d).bind
    fun w => setU w 4 4 k.i1).bind
    fun w => setU w 4 0 k.i0)

/-- `unpack(cw)` (R132). Every range is legal, so no extraction fails. -/
def unpack (cw : Word64) : Except ErrKind ScaledDctBlock :=
  (getU cw 9 23).bind fun a =>
  (getS cw 5 18).bind fun b =>
  (getS cw 5 13).bind fun c =>
  (getS cw 5 8).bind fun d =>
  (getU cw 4 4).bind fun i1 =>
  (getU cw 4 0).map fun i0 => ⟨a, b, c, d, i1, i0⟩

/-- Byte `k` of a codeword, counted from the least significant one: `cw[8k+7 : 8k]` (R63, R134). -/
def codewordByte (cw : Word64) (k : Nat) : Byte := cw.extractLsb' (8 * k) 8

/-- Deserialization of four stream bytes, oldest first (R134). -/
def deserialize (b0 b1 b2 b3 : Byte) : Except ErrKind Word64 :=
  (((setU 0#64 8 24 b0.toNat).bind
    fun w => setU w 8 16 b1.toNat).bind
    fun w => setU w 8 8 b2.toNat).bind
    fun w => setU w 8 0 b3.toNat

/-- Bits 63:32 of a codeword register are 0 (R136, R137). -/
def isCodeword (cw : Word64) : Bool := cw.extractLsb' 32 32 == 0#32

/-- The ScaledDctBlock in XG(base, 6) (R45). -/
def readBlock (t : State) (base : Reg) : ScaledDctBlock where
  a := uint (t.readX base)
  b := sint (t.readX (groupReg base 1))
  c := sint (t.readX (groupReg base 2))
  d := sint (t.readX (groupReg base 3))
  i1 := uint (t.readX (groupReg base 4))
  i0 := uint (t.readX (groupReg base 5))

/-- The six patterns of a ScaledDctBlock in XG order (R45, R136). -/
def blockWords (k : ScaledDctBlock) : List Word64 :=
  [zext64 k.a, u64 k.b, u64 k.c, u64 k.d, zext64 k.i1, zext64 k.i0]

/-- CW.PACK (R135). -/
def execCwPack (xd xs : Reg) (s : State) : Result :=
  runCommand (.cwPack xd xs) (xGroup xs 6)
    (fun t => (pack (readBlock t xs)).map fun cw => t.writeX xd cw) s

/-- CW.UNPACK (R136). -/
def execCwUnpack (xd xs : Reg) (s : State) : Result :=
  runCommand (.cwUnpack xd xs) [.x xs]
    (fun t =>
      if isCodeword (t.readX xs) then
        (unpack (t.readX xs)).map fun k => t.writeXs xd (blockWords k)
      else .error .preconditionViolation) s

/-- CW.EMIT (R137). -/
def execCwEmit (xs : Reg) (s : State) : Result :=
  runCommand (.cwEmit xs) [.x xs]
    (fun t =>
      let cw := t.readX xs
      if isCodeword cw then
        .ok (t.outPush (codewordByte cw 3) (codewordByte cw 2) (codewordByte cw 1)
          (codewordByte cw 0))
      else .error .preconditionViolation) s

/-- CW.FETCH (R138), and each re-evaluation of a held one. With four bytes it completes, and WAITING is
0 from then on; with fewer it raises TruncatedStreamError on a closed stream, and on an open one it is
held, with no answer yet. -/
def execCwFetch (xd : Reg) (s : State) : Result :=
  match s.inStream with
  | b0 :: b1 :: b2 :: b3 :: rest =>
    match deserialize b0 b1 b2 b3 with
    | .ok cw => .next (({ s with inStream := rest, held := none }.writeX xd cw).answer .done)
    | .error k => .next (s.errorEntry k (encode (.cwFetch xd)))
  | _ =>
    if s.inClosed then .next (s.errorEntry .truncatedStreamError (encode (.cwFetch xd)))
    else .next { s with held := some xd }

end Sys2Proof.Machine
end

