-- ==== Sys2Proof/Machine/Real.lean ====
section
/-! DEFINITION. The real-number primitives of R14: binary32 patterns as exact rationals, one rounding
of a rational to a pattern, and the integer roundings. Every formula of a command is evaluated exactly
in ℚ (D4). -/

namespace Sys2Proof.Machine

/-- `2^e` for an integer `e`. -/
def pow2 (e : Int) : ℚ :=
  if 0 ≤ e then ((2 ^ e.toNat : Nat) : ℚ) else 1 / ((2 ^ (-e).toNat : Nat) : ℚ)

/-- The sign bit `b[31]` (R14). -/
def f32Sign (b : Word32) : Bool := b.getLsbD 31

/-- The biased exponent `b[30:23]` (R14). -/
def f32Exp (b : Word32) : Nat := b.toNat / 2 ^ 23 % 2 ^ 8

/-- The fraction `b[22:0]` (R14). -/
def f32Frac (b : Word32) : Nat := b.toNat % 2 ^ 23

/-- `isFinite(b)`: neither an infinity nor a NaN (R14). -/
def isFinite (b : Word32) : Bool := f32Exp b != 255

/-- `val32(b)`: the exact value of a finite pattern (R14). The commands check `isFinite` first. -/
def val32 (b : Word32) : ℚ :=
  let magnitude : ℚ :=
    if f32Exp b = 0 then pow2 (-126) * ((f32Frac b : ℚ) / pow2 23)
    else pow2 ((f32Exp b : Int) - 127) * (1 + (f32Frac b : ℚ) / pow2 23)
  if f32Sign b then -magnitude else magnitude

/-- The integer `e` with `2^e <= a < 2^(e+1)`, for `a > 0` (R14). The difference of the two logarithms
is `e` or `e + 1`. -/
def floorLog2 (a : ℚ) : Int :=
  let k : Int := (Nat.log2 a.num.natAbs : Int) - (Nat.log2 a.den : Int)
  if pow2 k ≤ a then k else k - 1

/-- The nearest integer, ties to the even integer (R14). -/
def roundHalfEven (q : ℚ) : Int :=
  let n := ⌊q⌋
  let r := q - n
  if r < 1 / 2 then n
  else if 1 / 2 < r then n + 1
  else if n % 2 = 0 then n else n + 1

/-- The finite pattern with value `n * 2^(e-23)` for `n <= 2^24`, `e >= -126`, where `n < 2^23` only at
`e = -126` (R14). -/
def finitePattern (negative : Bool) (e : Int) (n : Nat) : Word32 :=
  let sign := if negative then 2 ^ 31 else 0
  if n < 2 ^ 23 then BitVec.ofNat 32 (sign + n)
  else if n < 2 ^ 24 then BitVec.ofNat 32 (sign + (e + 127).toNat * 2 ^ 23 + (n - 2 ^ 23))
  else BitVec.ofNat 32 (sign + (e + 128).toNat * 2 ^ 23)

/-- `rnd32(q)`: roundTiesToEven to binary32, with subnormals, and overflow to infinity (R14). -/
def rnd32 (q : ℚ) : Word32 :=
  if q = 0 then 0#32
  else
    let a := if q < 0 then -q else q
    let e := max (floorLog2 a) (-126)
    let n := roundHalfEven (a / pow2 (e - 23))
    if pow2 128 ≤ n * pow2 (e - 23) then
      (if q < 0 then 0xFF800000#32 else 0x7F800000#32)
    else finitePattern (decide (q < 0)) e n.toNat

/-- `trunc(q)`: the integer part, rounded toward zero (R14). -/
def trunc (q : ℚ) : Int := if q < 0 then -⌊-q⌋ else ⌊q⌋

/-- `rhaz(q)`: the nearest integer, ties away from zero (R14). -/
def rhaz (q : ℚ) : Int := if q < 0 then -⌊-q + 1 / 2⌋ else ⌊q + 1 / 2⌋

/-- `clamp01(q) = min(max(q, 0), 1)` (R14). -/
def clamp01 (q : ℚ) : ℚ := min (max q 0) 1

/-- Every entry of `CHROMA_TABLE` is finite, as R155 asks of a table. -/
def chromaTableFinite (c : Config) : Bool := c.chromaTable.toList.all isFinite

end Sys2Proof.Machine
end

