-- ==== Sys2Proof/Machine/Color.lean ====
section
/-! DEFINITION. The colour-space converter: the coefficients (R180, R181) and the commands CC.FWD and
CC.INV (R182, R183). -/

namespace Sys2Proof.Machine

/-- A ComponentPixel in exact values: luma and the two chroma differences (R17, R45). -/
structure ComponentValue where
  y : ℚ
  pB : ℚ
  pR : ℚ

/-- An RGB triple in exact values. -/
structure RgbValue where
  r : ℚ
  g : ℚ
  b : ℚ

/-- The forward coefficients (R180), on channels already divided by the denominator. -/
def toComponent (c : RgbValue) : ComponentValue where
  y := 299 / 1000 * c.r + 587 / 1000 * c.g + 114 / 1000 * c.b
  pB := -(168736 / 1000000) * c.r - 331264 / 1000000 * c.g + 5 / 10 * c.b
  pR := 5 / 10 * c.r - 418688 / 1000000 * c.g - 81312 / 1000000 * c.b

/-- The inverse coefficients (R181). -/
def toRgb (c : ComponentValue) : RgbValue where
  r := c.y + 1402 / 1000 * c.pR
  g := c.y - 344136 / 1000000 * c.pB - 714136 / 1000000 * c.pR
  b := c.y + 1772 / 1000 * c.pB

/-- One channel of CC.INV: clamp, scale by the denominator, round (R181, R183). -/
def channelValue (q : ℚ) (denom : Nat) : Nat := (rhaz (clamp01 q * denom)).toNat

/-- CC.FWD (R182). The check on y is kept although it cannot fail (D30). -/
def execCcFwd (fd xs : Reg) (s : State) : Result :=
  runCommand (.ccFwd fd xs) (xGroup xs 3)
    (fun t =>
      let D := uint t.denom
      let r := uint (t.readX xs)
      let g := uint (t.readX (groupReg xs 1))
      let b := uint (t.readX (groupReg xs 2))
      if D = 0 then .error .preconditionViolation
      else if D < r ∨ D < g ∨ D < b then .error .preconditionViolation
      else
        let p := toComponent ⟨(r : ℚ) / D, (g : ℚ) / D, (b : ℚ) / D⟩
        if p.y < 0 ∨ 1 < p.y then .error .preconditionViolation
        else .ok (t.writeFs fd [rnd32 p.y, rnd32 p.pB, rnd32 p.pR])) s

/-- CC.INV (R183). -/
def execCcInv (xd fs : Reg) (s : State) : Result :=
  runCommand (.ccInv xd fs) (fGroup fs 3)
    (fun t =>
      let D := uint t.denom
      let sy := t.readF fs
      let sb := t.readF (groupReg fs 1)
      let sr := t.readF (groupReg fs 2)
      if D = 0 then .error .preconditionViolation
      else if !(isFinite sy && isFinite sb && isFinite sr) then .error .preconditionViolation
      else
        let c := toRgb ⟨val32 sy, val32 sb, val32 sr⟩
        .ok (t.writeXs xd
          [zext64 (channelValue c.r D), zext64 (channelValue c.g D), zext64 (channelValue c.b D)])) s

end Sys2Proof.Machine
end

