-- ==== Sys2Proof/Machine/Control.lean ====
section
/-! DEFINITION. Control-register access: CR.RD and CR.WR (R190, R191). -/

namespace Sys2Proof.Machine

/-- CR.RD (R190). A reserved number is IllegalCommand (R85 condition 5). -/
def execCrRd (xd crn : Reg) (s : State) : Result :=
  runCommand (.crRd xd crn) []
    (fun t =>
      match CReg.ofNumber crn.val with
      | some c => .ok (t.writeX xd (t.readCR c))
      | none => .error .illegalCommand) s

/-- CR.WR (R191). Only DENOM is writable; the well-formedness check has `crn = 1`. -/
def execCrWr (crn xs : Reg) (s : State) : Result :=
  runCommand (.crWr crn xs) [.x xs] (fun t => .ok { t with denom := t.readX xs }) s

end Sys2Proof.Machine
end

