-- ==== Sys2Proof/Machine/Dct.lean ====
section
/-! DEFINITION. The 2×2 block transformer: the forward and inverse matrices (R171, R172) and the commands
DCT.FWD and DCT.INV (R174, R175). -/

namespace Sys2Proof.Machine

/-- Four luma values of a pixel quad in reading order: e1 top-left, e2 top-right, e3 bottom-left, e4
bottom-right (R170). -/
structure LumaQuad where
  y1 : ℚ
  y2 : ℚ
  y3 : ℚ
  y4 : ℚ

/-- The four coefficients of a block (R171). -/
structure LumaCoeffs where
  a : ℚ
  b : ℚ
  c : ℚ
  d : ℚ

/-- The forward matrix (R171). -/
def forwardLuma (q : LumaQuad) : LumaCoeffs where
  a := (q.y1 + q.y2 + q.y3 + q.y4) / 4
  b := (q.y3 + q.y4 - q.y1 - q.y2) / 4
  c := (q.y2 + q.y4 - q.y1 - q.y3) / 4
  d := (q.y1 + q.y4 - q.y2 - q.y3) / 4

/-- The inverse matrix (R172). -/
def inverseLuma (k : LumaCoeffs) : LumaQuad where
  y1 := k.a - k.b - k.c + k.d
  y2 := k.a - k.b + k.c - k.d
  y3 := k.a + k.b - k.c - k.d
  y4 := k.a + k.b + k.c + k.d

/-- The arithmetic mean of the four pixels' chroma (R171). -/
def chromaMean (p1 p2 p3 p4 : ℚ) : ℚ := (p1 + p2 + p3 + p4) / 4

/-- Pattern `k` of the group FG(base, n). -/
def groupF (t : State) (base : Reg) (k : Nat) : Word32 := t.readF (groupReg base k)

/-- Every pattern of FG(base, n) is finite (R174, R175). -/
def groupFinite (t : State) (base : Reg) (n : Nat) : Bool :=
  (List.range n).all fun k => isFinite (groupF t base k)

/-- DCT.FWD (R174). Pixel k has y, pB and pR at offsets 3(k-1), 3(k-1)+1 and 3(k-1)+2 (R45). -/
def execDctFwd (fd fs : Reg) (s : State) : Result :=
  runCommand (.dctFwd fd fs) (fGroup fs 12)
    (fun t =>
      if groupFinite t fs 12 then
        let v := fun k => val32 (groupF t fs k)
        let k := forwardLuma ⟨v 0, v 3, v 6, v 9⟩
        .ok (t.writeFs fd
          [rnd32 k.a, rnd32 k.b, rnd32 k.c, rnd32 k.d,
            rnd32 (chromaMean (v 1) (v 4) (v 7) (v 10)),
            rnd32 (chromaMean (v 2) (v 5) (v 8) (v 11))])
      else .error .preconditionViolation) s

/-- DCT.INV (R175). The chroma patterns are copied as they stand. -/
def execDctInv (fd fs : Reg) (s : State) : Result :=
  runCommand (.dctInv fd fs) (fGroup fs 6)
    (fun t =>
      if groupFinite t fs 6 then
        let v := fun k => val32 (groupF t fs k)
        let q := inverseLuma ⟨v 0, v 1, v 2, v 3⟩
        let pB := groupF t fs 4
        let pR := groupF t fs 5
        .ok (t.writeFs fd
          [rnd32 q.y1, pB, pR, rnd32 q.y2, pB, pR, rnd32 q.y3, pB, pR, rnd32 q.y4, pB, pR])
      else .error .preconditionViolation) s

end Sys2Proof.Machine
end

