-- ==== Sys2Proof/Machine/Quantizer.lean ====
section
/-! DEFINITION. The scalar quantizer and the chroma lookup: Q.FA, Q.FBCD, Q.IA, Q.IBCD, Q.CIDX and
Q.CVAL (R150 to R158). -/

namespace Sys2Proof.Machine

/-- The quantized `a` (R151). A negative floor fits no unsigned field. -/
def quantizeA (b : Word32) : Except ErrKind Nat :=
  if !isFinite b then .error .preconditionViolation
  else
    let q := ⌊val32 b * 511⌋
    if q < 0 ∨ 511 < q then .error .overflowError else .ok q.toNat

/-- The quantized `b`, `c` or `d`, clamped to -15..15 (R152). -/
def quantizeBCD (b : Word32) : Except ErrKind Int :=
  if !isFinite b then .error .preconditionViolation
  else
    let v := val32 b
    if 3 / 10 ≤ v then .ok 15
    else if v ≤ -(3 / 10) then .ok (-15)
    else .ok (trunc (v * 50))

/-- The dequantized `a` (R153). -/
def dequantizeA (u : Nat) : Except ErrKind Word32 :=
  if 511 < u then .error .preconditionViolation else .ok (rnd32 ((u : ℚ) / 511))

/-- The dequantized `b`, `c` or `d` (R154). -/
def dequantizeBCD (n : Int) : Except ErrKind Word32 :=
  if n < -16 ∨ 15 < n then .error .preconditionViolation else .ok (rnd32 ((n : ℚ) / 50))

/-- `|v - val32(T[i])|` (R156). -/
def chromaDistance (table : Vector Word32 16) (v : ℚ) (i : Fin 16) : ℚ :=
  let d := v - val32 table[i]
  if d < 0 then -d else d

/-- `indexOf(v)`: the least index whose entry is nearest (R156). The scan runs upward and moves only to
a strictly nearer entry, so a tie goes to the lower index. -/
def chromaIndexOf (table : Vector Word32 16) (v : ℚ) : Fin 16 :=
  (List.finRange 16).foldl
    (fun best i => if chromaDistance table v i < chromaDistance table v best then i else best) 0

/-- The chroma index of an average chroma value (R157). -/
def chromaIndex (table : Vector Word32 16) (b : Word32) : Except ErrKind Nat :=
  if !isFinite b then .error .preconditionViolation
  else .ok (chromaIndexOf table (val32 b)).val

/-- The chroma value of an index: an exact copy of the table's pattern (R158). -/
def chromaValue (table : Vector Word32 16) (u : Nat) : Except ErrKind Word32 :=
  if h : u < 16 then .ok table[u] else .error .preconditionViolation

/-- Q.FA (R151). -/
def execQFA (xd fs : Reg) (s : State) : Result :=
  runCommand (.qFA xd fs) [.f fs]
    (fun t => (quantizeA (t.readF fs)).map fun q => t.writeX xd (zext64 q)) s

/-- Q.FBCD (R152). -/
def execQFBCD (xd fs : Reg) (s : State) : Result :=
  runCommand (.qFBCD xd fs) [.f fs]
    (fun t => (quantizeBCD (t.readF fs)).map fun q => t.writeX xd (u64 q)) s

/-- Q.IA (R153). -/
def execQIA (fd xs : Reg) (s : State) : Result :=
  runCommand (.qIA fd xs) [.x xs]
    (fun t => (dequantizeA (uint (t.readX xs))).map fun b => t.writeF fd b) s

/-- Q.IBCD (R154). -/
def execQIBCD (fd xs : Reg) (s : State) : Result :=
  runCommand (.qIBCD fd xs) [.x xs]
    (fun t => (dequantizeBCD (sint (t.readX xs))).map fun b => t.writeF fd b) s

/-- Q.CIDX (R157). -/
def execQCIdx (xd fs : Reg) (s : State) : Result :=
  runCommand (.qCIdx xd fs) [.f fs]
    (fun t =>
      (chromaIndex t.config.chromaTable (t.readF fs)).map fun i => t.writeX xd (zext64 i)) s

/-- Q.CVAL (R158). -/
def execQCVal (fd xs : Reg) (s : State) : Result :=
  runCommand (.qCVal fd xs) [.x xs]
    (fun t =>
      (chromaValue t.config.chromaTable (uint (t.readX xs))).map fun b => t.writeF fd b) s

end Sys2Proof.Machine
end

