-- ==== Sys2Proof/Machine/Dispatch.lean ====
section
/-! DEFINITION. The meaning of each command (R84), one arm per constructor. -/

namespace Sys2Proof.Machine

def exec (i : Instr) (s : State) : Host.Outcome State Fault Refusal :=
  match i with
  | .bfFitsU xd xs width => Sys2Proof.Machine.execBfFitsU xd xs width s
  | .bfFitsS xd xs width => Sys2Proof.Machine.execBfFitsS xd xs width s
  | .bfGetU xd xs width lsb => Sys2Proof.Machine.execBfGetU xd xs width lsb s
  | .bfGetS xd xs width lsb => Sys2Proof.Machine.execBfGetS xd xs width lsb s
  | .bfSetU xd xs width lsb => Sys2Proof.Machine.execBfSetU xd xs width lsb s
  | .bfSetS xd xs width lsb => Sys2Proof.Machine.execBfSetS xd xs width lsb s
  | .cwPack xd xs => Sys2Proof.Machine.execCwPack xd xs s
  | .cwUnpack xd xs => Sys2Proof.Machine.execCwUnpack xd xs s
  | .cwEmit xs => Sys2Proof.Machine.execCwEmit xs s
  | .cwFetch xd => Sys2Proof.Machine.execCwFetch xd s
  | .qFA xd fs => Sys2Proof.Machine.execQFA xd fs s
  | .qFBCD xd fs => Sys2Proof.Machine.execQFBCD xd fs s
  | .qIA fd xs => Sys2Proof.Machine.execQIA fd xs s
  | .qIBCD fd xs => Sys2Proof.Machine.execQIBCD fd xs s
  | .qCIdx xd fs => Sys2Proof.Machine.execQCIdx xd fs s
  | .qCVal fd xs => Sys2Proof.Machine.execQCVal fd xs s
  | .dctFwd fd fs => Sys2Proof.Machine.execDctFwd fd fs s
  | .dctInv fd fs => Sys2Proof.Machine.execDctInv fd fs s
  | .ccFwd fd xs => Sys2Proof.Machine.execCcFwd fd xs s
  | .ccInv xd fs => Sys2Proof.Machine.execCcInv xd fs s
  | .crRd xd crn => Sys2Proof.Machine.execCrRd xd crn s
  | .crWr crn xs => Sys2Proof.Machine.execCrWr crn xs s

end Sys2Proof.Machine
end

