-- ==== Sys2Proof/Machine/Port.lean ====
section
/-! DEFINITION. The host port (R211): issuing a word in each run state, the host's other operations, the
wake of a held CW.FETCH, and which move comes next. -/

namespace Sys2Proof.Machine

/-- The command word is executed: decode (R91), then the command's rule; an illegal word enters
IllegalCommand (R85). -/
def runWord (word : Word32) (s : State) : Result :=
  match decode word with
  | some i => exec i s
  | none => .next (s.errorEntry .illegalCommand word)

/-- `H.ISSUE(word)` in each run state (R211): IDLE executes, ABORTED answers REFUSED and changes nothing
else (R205), WAITING leaves the word at the port. -/
def issue (word : Word32) (s : State) : Result :=
  match s.runState with
  | .idle => runWord word s
  | .aborted => .next (s.answer .refused)
  | .waiting => .next { s with portWords := s.portWords ++ [word] }

/-- A push or close wakes a held CW.FETCH, which is evaluated again (R138, R211). -/
def wake (s : State) : Result :=
  match s.held with
  | some xd => execCwFetch xd s
  | none => .next s

/-- A register access by the host, which only IDLE and ABORTED allow (R211, D32). -/
def registerAccess (s t : State) : Result :=
  match s.runState with
  | .waiting => .refused .registerAccessWhileWaiting
  | _ => .next t

/-- `H.PUSHIN(byte)` (R61, R211). U17: a host never lets INCOUNT wrap. -/
def pushIn (byte : Byte) (s : State) : Result :=
  if s.inClosed then .refused .pushAfterClose
  else if 2 ^ 64 - 1 ≤ s.inStream.length then .refused .inCountWouldWrap
  else wake { s with inStream := s.inStream ++ [byte] }

/-- `H.CLOSEIN` (R61, R211). -/
def closeIn (s : State) : Result :=
  if s.inClosed then .refused .secondClose else wake { s with inClosed := true }

/-- `H.DRAINOUT` (R62, R211). OUTCOUNT stays (R41). -/
def drainOut (s : State) : Result :=
  match s.outStream with
  | [] => .next (s.answer .empty)
  | b :: rest => .next ({ s with outStream := rest }.answer (.outByte b))

/-- One host operation (R211). -/
def hostMove (op : HostOp) (s : State) : Result :=
  match op with
  | .reset => .next s.hostReset
  | .issue word => issue word s
  | .writeX i v => registerAccess s (s.writeX i v)
  | .writeF i b => registerAccess s (s.writeF i b)
  | .readX i => registerAccess s ((s.noteReads [.x i]).answer (.xValue (s.readX i)))
  | .readF i => registerAccess s ((s.noteReads [.f i]).answer (.fValue (s.readF i)))
  | .readCR n => .next (s.answer (.crValue (s.readCR n)))
  | .pushIn byte => pushIn byte s
  | .closeIn => closeIn s
  | .drainOut => drainOut s

/-- What happens next. -/
inductive Move where
  /-- The port hands the oldest word it holds to the unit, which is IDLE or ABORTED again. -/
  | accept (word : Word32) (rest : List Word32)
  /-- The host makes its next operation. -/
  | host (op : HostOp) (rest : List HostOp)
  /-- The host makes no move, and the unit waits for it (R233, R237). -/
  | wait
  deriving DecidableEq, Repr

/-- A word held at the port goes to the unit as soon as it is IDLE or ABORTED (R211), before any further
host operation; while WAITING only the host can move (R237). -/
def nextMove (s : State) : Move :=
  match s.runState, s.portWords, s.hostOps with
  | .waiting, _, op :: ops => .host op ops
  | .waiting, _, [] => .wait
  | _, word :: words, _ => .accept word words
  | _, [], op :: ops => .host op ops
  | _, [], [] => .wait

/-- The effect of a move: the word or the operation leaves its queue and takes its effect. -/
def makeMove (m : Move) (s : State) : Result :=
  match m with
  | .accept word rest => issue word { s with portWords := rest }
  | .host op rest => hostMove op { s with hostOps := rest }
  | .wait => .next s

/-- The state with `word` placed where the unit takes its next command: first at the host port. An IDLE
unit runs it in the very next step. -/
def presentWord (s : State) (word : Word32) : State := { s with portWords := word :: s.portWords }

end Sys2Proof.Machine
end

