-- ==== Sys2Proof/Machine/Step.lean ====
section
/-! DEFINITION. One step of the unit and its host: the next move of Machine/Port.lean (R70, R211). -/

namespace Sys2Proof.Machine

/-- One step: the port's next word, or the host's next operation, or waiting for the host. -/
def step (s : State) : Host.Outcome State Fault Refusal := makeMove (nextMove s) s

/-- `s` with a word, numbered as spec/opcode_table.json numbers its bits, presented at the host port as
the next command. The unit has no program and no program counter (R35): commands come from the host. -/
def State.withFetchWord (s : State) (nbits w : Nat) : State :=
  presentWord s (BitVec.ofNat 32 (w % 2 ^ nbits))

end Sys2Proof.Machine
end

