-- ==== Sys2Proof/Safety.lean ====
section
/-! DEFINITION. The words claims are stated in: the invariant every step keeps, what a successful run is
(R218), and what a command leaves unchanged (R15, R66, R203). -/

namespace Sys2Proof.Machine

/-- What holds of the unit in every state a run reaches. -/
structure State.Inv (s : State) : Prop where
  /-- An aborted unit is not WAITING: error entry sets WAITING to 0 (R203, R43). -/
  aborted_not_waiting : s.err.isSome → s.held = none
  /-- FAULTCMD is 0 until an error is entered (R42, R46). -/
  no_error_no_faultCmd : s.err = none → s.faultCmd = 0#32
  /-- A CW.FETCH is held only on an open IN stream with fewer than four bytes (R138, R237). -/
  held_is_short : s.held.isSome → s.inStream.length < 4 ∧ s.inClosed = false
  /-- INCOUNT does not wrap (R40, U17). -/
  inCount_fits : s.inStream.length < 2 ^ 64
  /-- Every entry of `CHROMA_TABLE` is finite (R8, R155). -/
  table_finite : chromaTableFinite s.config = true

/-- An answer to a command other than DONE (R218). -/
def Answer.isFailure : Answer → Bool
  | .error _ => true
  | .refused => true
  | _ => false

/-- R218: the run so far is a success. Every answered command answered DONE, STATUS.ERR is 0, no command
is held or waits at the port, and no UnwrittenRead stands recorded. DESIGN CHOICE
(notes/assumptions/14.md): a run spans H.RESET, so what was answered or recorded before a reset still
counts, and a command that the reset abandoned or discarded, which answers nothing (R231), does not. -/
def State.success (s : State) : Bool :=
  s.answers.all (fun a => !a.isFailure) && s.err.isNone && s.held.isNone && s.portWords.isEmpty &&
    s.faults.isEmpty

/-- Register `r` belongs to the group of `n` registers with base `base` (R16). -/
def inGroup (base : Reg) (n : Nat) (r : Reg) : Prop := base.val ≤ r.val ∧ r.val < base.val + n

/-- Every X register outside `dest` is unchanged. -/
def KeepsX (s t : State) (dest : Reg → Prop) : Prop := ∀ r, ¬dest r → t.readX r = s.readX r

/-- Every F register outside `dest` is unchanged. -/
def KeepsF (s t : State) (dest : Reg → Prop) : Prop := ∀ r, ¬dest r → t.readF r = s.readF r

/-- No register. -/
def noReg : Reg → Prop := fun _ => False

/-- The two streams, the two counts and the closed flag are unchanged. -/
structure KeepsStreams (s t : State) : Prop where
  inStream : t.inStream = s.inStream
  inClosed : t.inClosed = s.inClosed
  outStream : t.outStream = s.outStream
  inCount : t.inCount = s.inCount
  outCount : t.outCount = s.outCount

/-- STATUS, FAULTCMD, the held fetch, the words at the port, the configuration and the host's coming
operations are unchanged. -/
structure KeepsControl (s t : State) : Prop where
  status : t.status = s.status
  err : t.err = s.err
  faultCmd : t.faultCmd = s.faultCmd
  held : t.held = s.held
  portWords : t.portWords = s.portWords
  config : t.config = s.config
  hostOps : t.hostOps = s.hostOps

/-- A command that works on registers alone completed: the port answered DONE, and everything but the
destination registers is unchanged. -/
structure RegistersOnly (s t : State) (xDest fDest : Reg → Prop) : Prop where
  done : t.answers = s.answers ++ [.done]
  x : KeepsX s t xDest
  f : KeepsF s t fDest
  denom : t.denom = s.denom
  streams : KeepsStreams s t
  control : KeepsControl s t

/-- R203: `t` is `s` after the entry of error `k` by the command word `word`, and nothing else changed. -/
structure ErrorEntered (s t : State) (k : ErrKind) (word : Word32) : Prop where
  err : t.err = some k
  faultCmd : t.faultCmd = word
  waiting : t.held = none
  runState : t.runState = .aborted
  answered : t.answers = s.answers ++ [.error k]
  x : ∀ r, t.readX r = s.readX r
  f : ∀ r, t.readF r = s.readF r
  denom : t.denom = s.denom
  streams : KeepsStreams s t
  portWords : t.portWords = s.portWords
  config : t.config = s.config
  hostOps : t.hostOps = s.hostOps

end Sys2Proof.Machine
end

