-- ==== Sys2Proof/Certificates/Slice0/Obligations.lean ====
section
/-! DEFINITION. The statements for the provers, file by file of the spec. A statement about a command
names its effect in terms of bit slices, integers and rationals, not in terms of the function the
meaning calls, and says what stays unchanged. -/

open Sys2Proof Sys2Proof.Machine

namespace Sys2Proof.Claims

/-! ### Words of the statements -/

/-- `PRE(w, lsb)` (R100). -/
def Pre (w lsb : Imm7) : Prop := w.val ≤ 64 ∧ w.val + lsb.val ≤ 64

/-- An unsigned value fits a width; nothing fits width 0 (R101). -/
def UFits (v w : Nat) : Prop := 0 < w ∧ v < 2 ^ w

/-- A signed value fits a width; nothing fits width 0 (R102). -/
def SFits (v : Int) (w : Nat) : Prop := 0 < w ∧ -2 ^ (w - 1) ≤ v ∧ v ≤ 2 ^ (w - 1) - 1

/-- The command `i` completes from `s`: it works on registers alone, and `post` holds of the state it
leaves. -/
def Completes (i : Instr) (s : State) (xDest fDest : Reg → Prop) (post : State → Prop) : Prop :=
  ∃ t, exec i s = .next t ∧ RegistersOnly s t xDest fDest ∧ post t

/-- The command `i` raises the error `k` from `s`, with the entry of R203 and nothing else. -/
def Raises (i : Instr) (s : State) (k : ErrKind) : Prop :=
  ∃ t, exec i s = .next t ∧ ErrorEntered s t k (encode i)

/-- The six fields of a ScaledDctBlock fit a codeword (R130, R131). -/
def BlockFits (k : ScaledDctBlock) : Prop :=
  k.a ≤ 511 ∧ (-16 ≤ k.b ∧ k.b ≤ 15) ∧ (-16 ≤ k.c ∧ k.c ≤ 15) ∧ (-16 ≤ k.d ∧ k.d ≤ 15) ∧
    k.i1 ≤ 15 ∧ k.i0 ≤ 15

/-- The fields of a codeword stand at the bits R130 gives them, and bits 63:32 are 0. -/
def HasLayout (cw : Word64) (k : ScaledDctBlock) : Prop :=
  (cw.extractLsb' 23 9).toNat = k.a ∧ (cw.extractLsb' 18 5).toInt = k.b ∧
  (cw.extractLsb' 13 5).toInt = k.c ∧ (cw.extractLsb' 8 5).toInt = k.d ∧
  (cw.extractLsb' 4 4).toNat = k.i1 ∧ (cw.extractLsb' 0 4).toNat = k.i0 ∧
  cw.extractLsb' 32 32 = 0#32

/-- The rounding of R181 for a value that is not negative: the nearest integer, a tie going up. -/
def RoundsTo (q : ℚ) (n : Nat) : Prop := (n : ℚ) - 1 / 2 ≤ q ∧ q < (n : ℚ) + 1 / 2

/-- The words that spell no command: conditions 1 to 5 of R85, slice by slice. -/
def IllegalWord (w : Word32) : Prop :=
  let opc := (w.extractLsb' 0 6).toNat
  let rd := (w.extractLsb' 6 5).toNat
  let rs := (w.extractLsb' 11 5).toNat
  -- 1: an unassigned opcode
  (opc = 0x00 ∨ opc = 0x07 ∨ (0x0C ≤ opc ∧ opc ≤ 0x0F) ∨ opc = 0x16 ∨ opc = 0x17 ∨ opc = 0x1A ∨
    opc = 0x1B ∨ opc = 0x1E ∨ opc = 0x1F ∨ 0x22 ≤ opc) ∨
  -- 2: a reserved field is not 0
  ((0x01 ≤ opc ∧ opc ≤ 0x06) ∧ w.extractLsb' 30 2 ≠ 0#2) ∨
  ((opc = 0x01 ∨ opc = 0x02) ∧ w.extractLsb' 23 7 ≠ 0#7) ∨
  (0x08 ≤ opc ∧ w.extractLsb' 16 16 ≠ 0#16) ∨
  -- 3: CW.EMIT with RD, CW.FETCH with RS
  (opc = 0x0A ∧ rd ≠ 0) ∨ (opc = 0x0B ∧ rs ≠ 0) ∨
  -- 4: a group that does not fit its file
  (opc = 0x08 ∧ 26 < rs) ∨ (opc = 0x09 ∧ 26 < rd) ∨
  (opc = 0x18 ∧ (26 < rd ∨ 20 < rs)) ∨ (opc = 0x19 ∧ (20 < rd ∨ 26 < rs)) ∨
  ((opc = 0x1C ∨ opc = 0x1D) ∧ (29 < rd ∨ 29 < rs)) ∨
  -- 5: a control register the command may not name
  (opc = 0x20 ∧ 4 < rs) ∨ (opc = 0x21 ∧ rd ≠ 1)

/-- The PreconditionViolation column of R201. -/
def RaisesPrecondition (s : State) : Instr → Prop
  | .bfFitsU _ _ w => 64 < w.val
  | .bfFitsS _ _ w => 64 < w.val
  | .bfGetU _ _ w lsb => ¬Pre w lsb
  | .bfGetS _ _ w lsb => ¬Pre w lsb
  | .bfSetU _ _ w lsb => ¬Pre w lsb
  | .bfSetS _ _ w lsb => ¬Pre w lsb
  | .cwPack _ _ => False
  | .cwUnpack _ xs => (s.readX xs).extractLsb' 32 32 ≠ 0#32
  | .cwEmit xs => (s.readX xs).extractLsb' 32 32 ≠ 0#32
  | .cwFetch _ => False
  | .qFA _ fs => isFinite (s.readF fs) = false
  | .qFBCD _ fs => isFinite (s.readF fs) = false
  | .qIA _ xs => 511 < (s.readX xs).toNat
  | .qIBCD _ xs => (s.readX xs).toInt < -16 ∨ 15 < (s.readX xs).toInt
  | .qCIdx _ fs => isFinite (s.readF fs) = false
  | .qCVal _ xs => 15 < (s.readX xs).toNat
  | .dctFwd _ fs => ∃ k < 12, isFinite (s.readF (groupReg fs k)) = false
  | .dctInv _ fs => ∃ k < 6, isFinite (s.readF (groupReg fs k)) = false
  | .ccFwd _ xs =>
    let D := s.denom.toNat
    let ch := fun k => (s.readX (groupReg xs k)).toNat
    let y : ℚ := 0.299 * (ch 0 / D) + 0.587 * (ch 1 / D) + 0.114 * (ch 2 / D)
    D = 0 ∨ (∃ k < 3, D < ch k) ∨ y < 0 ∨ 1 < y
  | .ccInv _ fs =>
    s.denom.toNat = 0 ∨ ∃ k < 3, isFinite (s.readF (groupReg fs k)) = false
  | .crRd _ _ => False
  | .crWr _ _ => False

/-- The OverflowError column of R201, where no PreconditionViolation goes before it (R202). -/
def RaisesOverflow (s : State) : Instr → Prop
  | .bfFitsU _ _ _ => False
  | .bfFitsS _ _ _ => False
  | .bfGetU _ _ _ _ => False
  | .bfGetS _ _ _ _ => False
  | .bfSetU _ xs w lsb => Pre w lsb ∧ ¬UFits (s.readX xs).toNat w.val
  | .bfSetS _ xs w lsb => Pre w lsb ∧ ¬SFits (s.readX xs).toInt w.val
  | .cwPack _ xs => ¬BlockFits (readBlock s xs)
  | .cwUnpack _ _ => False
  | .cwEmit _ => False
  | .cwFetch _ => False
  | .qFA _ fs =>
    isFinite (s.readF fs) = true ∧ (val32 (s.readF fs) * 511 < 0 ∨ 512 ≤ val32 (s.readF fs) * 511)
  | .qFBCD _ _ => False
  | .qIA _ _ => False
  | .qIBCD _ _ => False
  | .qCIdx _ _ => False
  | .qCVal _ _ => False
  | .dctFwd _ _ => False
  | .dctInv _ _ => False
  | .ccFwd _ _ => False
  | .ccInv _ _ => False
  | .crRd _ _ => False
  | .crWr _ _ => False

/-- The TruncatedStreamError column of R201: only CW.FETCH, on a closed stream of fewer than 4 bytes. -/
def RaisesTruncated (s : State) (i : Instr) : Prop :=
  (∃ xd, i = .cwFetch xd) ∧ s.inStream.length < 4 ∧ s.inClosed = true

/-- The source registers of a command, in the order it names them (R15, R34). -/
def sources : Instr → List RegName
  | .bfFitsU _ xs _ => [.x xs]
  | .bfFitsS _ xs _ => [.x xs]
  | .bfGetU _ xs _ _ => [.x xs]
  | .bfGetS _ xs _ _ => [.x xs]
  | .bfSetU xd xs _ _ => [.x xd, .x xs]
  | .bfSetS xd xs _ _ => [.x xd, .x xs]
  | .cwPack _ xs => xGroup xs 6
  | .cwUnpack _ xs => [.x xs]
  | .cwEmit xs => [.x xs]
  | .cwFetch _ => []
  | .qFA _ fs => [.f fs]
  | .qFBCD _ fs => [.f fs]
  | .qIA _ xs => [.x xs]
  | .qIBCD _ xs => [.x xs]
  | .qCIdx _ fs => [.f fs]
  | .qCVal _ xs => [.x xs]
  | .dctFwd _ fs => fGroup fs 12
  | .dctInv _ fs => fGroup fs 6
  | .ccFwd _ xs => xGroup xs 3
  | .ccInv _ fs => fGroup fs 3
  | .crRd _ _ => []
  | .crWr _ xs => [.x xs]

end Sys2Proof.Claims

open Sys2Proof.Claims

/-! ### Encoding (30_encoding.md) -/

/-- R90 against R91: the decoder reads back every command from its word, with every operand. -/
def Obligations.DecodeOfEncode : Prop :=
  ∀ i : Instr, i.wf = true → decode (encode i) = some i

/-- R86: a word that decodes is the one word of its command, so no bit of a legal word is dropped. -/
def Obligations.EncodeOfDecode : Prop :=
  ∀ (w : Word32) (i : Instr), decode w = some i → i.wf = true ∧ encode i = w

/-- R85: the words the decoder rejects are exactly those of conditions 1 to 5, and an IDLE unit answers
each of them with the entry of IllegalCommand and nothing else. -/
def Obligations.IllegalWordsEnterIllegalCommand : Prop :=
  ∀ w : Word32,
    (decode w = none ↔ IllegalWord w) ∧
    (IllegalWord w → ∀ s : State, s.runState = .idle →
      ∃ t, issue w s = .next t ∧ ErrorEntered s t .illegalCommand w)

/-- R90's examples and words of spec/95_test_vectors.md, one of each family: a sanity statement. -/
def Obligations.WrittenWordsDecode : Prop :=
  decode 0x090508C3#32 = some (.bfGetU 3 1 5 18) ∧
  decode 0x00080881#32 = some (.bfFitsU 2 1 8) ∧
  decode 0x1E041045#32 = some (.bfSetU 1 2 4 60) ∧
  decode 0x00005048#32 = some (.cwPack 1 10) ∧
  decode 0x000000CB#32 = some (.cwFetch 3) ∧
  decode 0x0000280A#32 = some (.cwEmit 5) ∧
  decode 0x00000891#32 = some (.qFBCD 2 1) ∧
  decode 0x00002518#32 = some (.dctFwd 20 4) ∧
  decode 0x000009DD#32 = some (.ccInv 7 1) ∧
  decode 0x00000861#32 = some (.crWr 1 1) ∧
  decode 0x00000000#32 = none ∧
  decode 0x00880881#32 = none

/-! ### The host port, errors and reset (60_exceptions.md, 70_reset_and_hazards.md, 10_state.md) -/

/-- R211, H.ISSUE while IDLE: the step that takes a word, held at the port or issued by the host, is
exec of the command it decodes to, at the state without that word. `withFetchWord` presents a word. That
a step takes its word from these queues, a held one first, is the model's choice of
notes/assumptions/4.md and notes/assumptions/5.md. -/
def Obligations.StepRunsTheDecodedCommand : Prop :=
  ∀ (s : State) (w : Word32) (i : Instr), s.runState = .idle → decode w = some i →
    (∀ ws, s.portWords = w :: ws → step s = exec i { s with portWords := ws }) ∧
    (∀ ops, s.portWords = [] → s.hostOps = .issue w :: ops →
      step s = exec i { s with hostOps := ops }) ∧
    step (s.withFetchWord 32 w.toNat) = exec i s

/-- The invariant holds right after reset, and after any H.RESET of a state that has it. -/
def Obligations.ResetHasInv : Prop :=
  State.reset.Inv ∧ ∀ s : State, s.Inv → s.hostReset.Inv

/-- From every state with the invariant, every step keeps it: an aborted unit is not WAITING, FAULTCMD is
0 before the first error, a fetch is held only on a short open stream, INCOUNT does not wrap, and the
chroma table stays finite. -/
def Obligations.StepKeepsInv : Prop :=
  ∀ s t : State, s.Inv → step s = .next t → t.Inv

/-- R46: every piece of state after reset. The values of X and F are unspecified there, and every
register is unwritten. The configuration survives H.RESET (R230). That the port holds no word afterwards
is the model's choice of notes/assumptions/5.md, in neither R46 nor R30. -/
def Obligations.ResetState : Prop :=
  ∀ s : State, ∃ t, hostMove .reset s = .next t ∧ t.config = s.config ∧
    ∀ r ∈ [State.reset, t],
      (∀ q : RegName, r.written q = false) ∧ r.status = 0#64 ∧ r.denom = 0#64 ∧
      r.inCount = 0#64 ∧ r.outCount = 0#64 ∧ r.readCR .faultCmd = 0#64 ∧ r.inStream = [] ∧
      r.inClosed = false ∧ r.outStream = [] ∧ r.held = none ∧ r.portWords = [] ∧
      r.runState = .idle

/-- R203: whatever word an unaborted unit runs, if it leaves the unit with an error, then the entry of
R203 for that error and that word is all that happened. -/
def Obligations.ErrorsEnterPrecisely : Prop :=
  ∀ (s t : State) (w : Word32) (k : ErrKind), s.err = none → runWord w s = .next t →
    t.err = some k → ErrorEntered s t k w

/-- R201 with the priority of R202: which command raises which error, and when; every error records the
command word in FAULTCMD, and a word that spells no command raises IllegalCommand, which no well-formed
command does. -/
def Obligations.ErrorTable : Prop :=
  (∀ (i : Instr) (s : State), i.wf = true → s.err = none →
    ∃ t, exec i s = .next t ∧
      (t.err = some .preconditionViolation ↔ RaisesPrecondition s i) ∧
      (t.err = some .overflowError ↔ RaisesOverflow s i) ∧
      (t.err = some .truncatedStreamError ↔ RaisesTruncated s i) ∧
      t.err ≠ some .illegalCommand ∧ (t.err.isSome = true → t.faultCmd = encode i)) ∧
  (∀ (w : Word32) (s : State), decode w = none → s.err = none →
    ∃ t, runWord w s = .next t ∧ t.err = some .illegalCommand ∧ t.faultCmd = w)

/-- R218 without the model's own fault: every command answers DONE, or enters an error, or is a
CW.FETCH that is held with no answer, and never two of these. No command stops the machine. -/
def Obligations.CommandOutcomes : Prop :=
  ∀ (i : Instr) (s : State), ∃ t, exec i s = .next t ∧
    ((t.answers = s.answers ++ [.done] ∧ t.err = s.err) ∨
      (∃ k, t.answers = s.answers ++ [.error k] ∧ t.err = some k ∧ t.held = none) ∨
      (t.answers = s.answers ∧ t.err = s.err ∧ ∃ xd, i = .cwFetch xd ∧ t.held = some xd))

/-- R205: an aborted unit refuses every word, undecoded and with no effect; the host may still read, and
drain OUT, and push or close an open IN. -/
def Obligations.AbortedUnitRefuses : Prop :=
  ∀ s : State, s.Inv → s.err.isSome = true →
    (∀ w, issue w s = .next { s with answers := s.answers ++ [.refused] }) ∧
    (∀ n, hostMove (.readCR n) s = .next (s.answer (.crValue (s.readCR n)))) ∧
    (∀ i, ∃ t, hostMove (.readX i) s = .next t ∧ t.answers = s.answers ++ [.xValue (s.readX i)]) ∧
    (∀ i, ∃ t, hostMove (.readF i) s = .next t ∧ t.answers = s.answers ++ [.fValue (s.readF i)]) ∧
    (∃ t a, hostMove .drainOut s = .next t ∧ t.answers = s.answers ++ [a]) ∧
    (s.inClosed = false → hostMove .closeIn s = .next { s with inClosed := true }) ∧
    (s.inClosed = false → s.inStream.length < 2 ^ 64 - 1 →
      ∀ b, hostMove (.pushIn b) s = .next { s with inStream := s.inStream ++ [b] })

/-- R206, R207: in an aborted unit, a step that is not the host's H.RESET keeps ERR and FAULTCMD, so the
first error stands; H.RESET clears it. -/
def Obligations.OnlyResetLeavesAborted : Prop :=
  ∀ s t : State, s.Inv → s.err.isSome = true → step s = .next t →
    (t.err = s.err ∧ t.faultCmd = s.faultCmd) ∨
    (∃ ops, nextMove s = .host .reset ops ∧ t.err = none ∧ t.faultCmd = 0#32)

/-- R211, H.ISSUE while WAITING: the port holds the word and nothing else happens. That the port holds any
number of words, and that once the unit is IDLE or ABORTED the oldest goes in before any further host
operation, is the model's choice of notes/assumptions/5.md, deduced from R211 and R70. -/
def Obligations.WaitingPortHoldsWords : Prop :=
  (∀ (s : State) (w : Word32), s.runState = .waiting →
    issue w s = .next { s with portWords := s.portWords ++ [w] }) ∧
  (∀ (s : State) (w : Word32) (ws : List Word32), s.runState ≠ .waiting → s.portWords = w :: ws →
    step s = issue w { s with portWords := ws })

/-- U15, R211: the moves the host port does not give. While WAITING no register access; after the close
no push and no second close. -/
def Obligations.ForbiddenHostMovesAreRefused : Prop :=
  ∀ s : State,
    (s.runState = .waiting → ∀ (i : Reg) (v : Word64) (b : Word32),
      hostMove (.writeX i v) s = .refused .registerAccessWhileWaiting ∧
      hostMove (.writeF i b) s = .refused .registerAccessWhileWaiting ∧
      hostMove (.readX i) s = .refused .registerAccessWhileWaiting ∧
      hostMove (.readF i) s = .refused .registerAccessWhileWaiting) ∧
    (s.inClosed = true → hostMove .closeIn s = .refused .secondClose ∧
      ∀ byte, hostMove (.pushIn byte) s = .refused .pushAfterClose)

/-- R211, H.WRX and H.WRF while IDLE or ABORTED: the register takes the value, counts as written, and
nothing else changes. -/
def Obligations.HostWritesOneRegister : Prop :=
  ∀ s : State, s.runState ≠ .waiting → ∀ (i : Reg) (v : Word64) (b : Word32),
    (∃ t, hostMove (.writeX i v) s = .next t ∧ t.readX i = v ∧ t.written (.x i) = true ∧
      KeepsX s t (· = i) ∧ KeepsF s t noReg ∧ t.denom = s.denom ∧ KeepsStreams s t ∧
      KeepsControl s t ∧ t.answers = s.answers) ∧
    (∃ t, hostMove (.writeF i b) s = .next t ∧ t.readF i = b ∧ t.written (.f i) = true ∧
      KeepsX s t noReg ∧ KeepsF s t (· = i) ∧ t.denom = s.denom ∧ KeepsStreams s t ∧
      KeepsControl s t ∧ t.answers = s.answers)

/-- R211, H.RDX and H.RDF while IDLE or ABORTED, and H.RDCR always: the port answers the register's value,
STATUS live, and nothing else changes, but that a read of a register which nothing has written since
reset is recorded (the model's choice of notes/assumptions/2.md for R34). -/
def Obligations.HostReadsAnswerTheRegister : Prop :=
  ∀ s : State,
    (s.runState ≠ .waiting → ∀ i : Reg,
      hostMove (.readX i) s = .next { s with
        answers := s.answers ++ [.xValue (s.readX i)],
        faults := s.faults ++ (if s.written (.x i) then [] else [.unwrittenRead (.x i)]) } ∧
      hostMove (.readF i) s = .next { s with
        answers := s.answers ++ [.fValue (s.readF i)],
        faults := s.faults ++ (if s.written (.f i) then [] else [.unwrittenRead (.f i)]) }) ∧
    (∀ (n : CReg) (v : Word64),
      (v = match n with
        | .status => s.status
        | .denom => s.denom
        | .inCount => BitVec.ofNat 64 s.inStream.length
        | .outCount => s.outCount
        | .faultCmd => s.faultCmd.setWidth 64) →
      hostMove (.readCR n) s = .next { s with answers := s.answers ++ [.crValue v] })

/-- R38: the fields of STATUS. ERR is 0 to 4 by the error kind, WAITING is 1 while a fetch is held,
INCLOSED is 1 once IN is closed, and bits 63:5 read as 0. -/
def Obligations.StatusFields : Prop :=
  ∀ s : State,
    (s.status.extractLsb' 0 3).toNat = (match s.err with
      | none => 0
      | some .preconditionViolation => 1
      | some .overflowError => 2
      | some .truncatedStreamError => 3
      | some .illegalCommand => 4) ∧
    s.status.getLsbD 3 = s.held.isSome ∧
    s.status.getLsbD 4 = s.inClosed ∧
    s.status.extractLsb' 5 59 = 0#59

/-- The model's choice of notes/assumptions/2.md for R34: a well-formed command records UnwrittenRead for
exactly its source registers that nothing has written since reset, whatever it answers, and an illegal
one, which reads no operand (R91), records nothing. -/
def Obligations.UnwrittenReadsAreRecorded : Prop :=
  ∀ (i : Instr) (s : State), ∃ t, exec i s = .next t ∧
    t.faults = if i.wf then
      s.faults ++ ((sources i).filter fun r => !s.written r).map .unwrittenRead else s.faults

/-- R60, R67, R37, R42: what only one command may touch. DENOM changes only by CR.WR, IN loses bytes only
to CW.FETCH (its four oldest), OUT gains bytes only from CW.EMIT (four at its end), and no command
changes the configuration, the closed flag, the port or the host's coming operations. -/
def Obligations.OnlyTheirCommandTouchesThem : Prop :=
  ∀ (i : Instr) (s t : State), exec i s = .next t →
    (t.denom = s.denom ∨ ∃ xs, i = .crWr 1 xs ∧ t.denom = s.readX xs) ∧
    (t.inStream = s.inStream ∨
      ∃ xd b0 b1 b2 b3, i = .cwFetch xd ∧ s.inStream = b0 :: b1 :: b2 :: b3 :: t.inStream) ∧
    ((t.outStream = s.outStream ∧ t.outCount = s.outCount) ∨
      ∃ xs b0 b1 b2 b3, i = .cwEmit xs ∧ t.outStream = s.outStream ++ [b0, b1, b2, b3] ∧
        t.outCount = s.outCount + 4) ∧
    (t.faultCmd = s.faultCmd ∨ ∃ k, t.err = some k ∧ t.faultCmd = encode i) ∧
    t.config = s.config ∧ t.inClosed = s.inClosed ∧ t.portWords = s.portWords ∧
    t.hostOps = s.hostOps

/-! ### Streams (20_memory.md) -/

/-- R61, R40: on an open IN stream with no fetch held, a push appends one byte and adds 1 to INCOUNT, and
a close sets INCLOSED and nothing else. -/
def Obligations.PushAndCloseFeedIn : Prop :=
  ∀ s : State, s.held = none → s.inClosed = false → s.inStream.length < 2 ^ 64 - 1 →
    (∀ byte, ∃ t, hostMove (.pushIn byte) s = .next t ∧
      t = { s with inStream := s.inStream ++ [byte] } ∧
      t.inCount.toNat = s.inCount.toNat + 1) ∧
    (∃ t, hostMove .closeIn s = .next t ∧ t = { s with inClosed := true } ∧
      t.status.getLsbD 4 = true)

/-- R62, R41: OUT is drained oldest byte first, `EMPTY` answers a drain of nothing, and no drain changes
OUTCOUNT or anything else. -/
def Obligations.DrainTakesTheOldestByte : Prop :=
  ∀ s : State,
    (∀ b rest, s.outStream = b :: rest → hostMove .drainOut s =
      .next { s with outStream := rest, answers := s.answers ++ [.outByte b] }) ∧
    (s.outStream = [] → hostMove .drainOut s =
      .next { s with answers := s.answers ++ [.empty] })

/-! ### BitField (41_bitfield.md) -/

/-- BF.FITSU, R101: 1 exactly when the unsigned value fits the width, and no value fits width 0. -/
def Obligations.BfFitsUResult : Prop :=
  ∀ (s : State) (xd xs : Reg) (w : Imm7),
    (w.val ≤ 64 → Completes (.bfFitsU xd xs w) s (· = xd) noReg fun t =>
      (UFits (s.readX xs).toNat w.val → t.readX xd = 1#64) ∧
      (¬UFits (s.readX xs).toNat w.val → t.readX xd = 0#64)) ∧
    (64 < w.val → Raises (.bfFitsU xd xs w) s .preconditionViolation)

/-- BF.FITSS, R102: 1 exactly when the signed value fits the width, and no value fits width 0. -/
def Obligations.BfFitsSResult : Prop :=
  ∀ (s : State) (xd xs : Reg) (w : Imm7),
    (w.val ≤ 64 → Completes (.bfFitsS xd xs w) s (· = xd) noReg fun t =>
      (SFits (s.readX xs).toInt w.val → t.readX xd = 1#64) ∧
      (¬SFits (s.readX xs).toInt w.val → t.readX xd = 0#64)) ∧
    (64 < w.val → Raises (.bfFitsS xd xs w) s .preconditionViolation)

/-- BF.GETU, R103: the slice `word[lsb+w-1 : lsb]`, zero-extended; 0 at width 0. -/
def Obligations.BfGetUResult : Prop :=
  ∀ (s : State) (xd xs : Reg) (w lsb : Imm7),
    (Pre w lsb → Completes (.bfGetU xd xs w lsb) s (· = xd) noReg fun t =>
      t.readX xd = ((s.readX xs).extractLsb' lsb.val w.val).setWidth 64) ∧
    (¬Pre w lsb → Raises (.bfGetU xd xs w lsb) s .preconditionViolation)

/-- BF.GETS, R104: the slice `word[lsb+w-1 : lsb]`, sign-extended from bit w-1; 0 at width 0. -/
def Obligations.BfGetSResult : Prop :=
  ∀ (s : State) (xd xs : Reg) (w lsb : Imm7),
    (Pre w lsb → Completes (.bfGetS xd xs w lsb) s (· = xd) noReg fun t =>
      t.readX xd = ((s.readX xs).extractLsb' lsb.val w.val).signExtend 64) ∧
    (¬Pre w lsb → Raises (.bfGetS xd xs w lsb) s .preconditionViolation)

/-- BF.SETU, R105: bits `[lsb, lsb+w)` of X[xd] become the value's low bits and every other bit stays;
PRE is checked before the fit, and width 0 never fits. -/
def Obligations.BfSetUResult : Prop :=
  ∀ (s : State) (xd xs : Reg) (w lsb : Imm7),
    (Pre w lsb → UFits (s.readX xs).toNat w.val →
      Completes (.bfSetU xd xs w lsb) s (· = xd) noReg fun t =>
        ∀ k < 64, (t.readX xd).getLsbD k =
          if lsb.val ≤ k ∧ k < lsb.val + w.val then (s.readX xs).getLsbD (k - lsb.val)
          else (s.readX xd).getLsbD k) ∧
    (Pre w lsb → ¬UFits (s.readX xs).toNat w.val →
      Raises (.bfSetU xd xs w lsb) s .overflowError) ∧
    (¬Pre w lsb → Raises (.bfSetU xd xs w lsb) s .preconditionViolation)

/-- BF.SETS, R106: as BF.SETU with the value's two's-complement bits and the signed fit. -/
def Obligations.BfSetSResult : Prop :=
  ∀ (s : State) (xd xs : Reg) (w lsb : Imm7),
    (Pre w lsb → SFits (s.readX xs).toInt w.val →
      Completes (.bfSetS xd xs w lsb) s (· = xd) noReg fun t =>
        ∀ k < 64, (t.readX xd).getLsbD k =
          if lsb.val ≤ k ∧ k < lsb.val + w.val then (s.readX xs).getLsbD (k - lsb.val)
          else (s.readX xd).getLsbD k) ∧
    (Pre w lsb → ¬SFits (s.readX xs).toInt w.val →
      Raises (.bfSetS xd xs w lsb) s .overflowError) ∧
    (¬Pre w lsb → Raises (.bfSetS xd xs w lsb) s .preconditionViolation)

/-- R107: reading back what was inserted, for every legal value; at width 0 no value is legal. -/
def Obligations.GetOfSetIsTheValue : Prop :=
  ∀ (word : Word64) (w lsb : Nat), w + lsb ≤ 64 →
    (∀ v : Nat, fitsU v w = .ok true →
      ∃ word', setU word w lsb v = .ok word' ∧ getU word' w lsb = .ok v) ∧
    (∀ v : Int, fitsS v w = .ok true →
      ∃ word', setS word w lsb v = .ok word' ∧ getS word' w lsb = .ok v) ∧
    (∀ v : Nat, fitsU v w = .ok true ↔ 1 ≤ w ∧ v < 2 ^ w) ∧
    (∀ v : Int, fitsS v w = .ok true ↔ 1 ≤ w ∧ -2 ^ (w - 1) ≤ v ∧ v ≤ 2 ^ (w - 1) - 1)

/-- R108: an insertion leaves every bit outside the field, and inserting what a field holds changes
nothing. -/
def Obligations.SetKeepsOtherBits : Prop :=
  ∀ (word word' : Word64) (w lsb : Nat),
    (∀ v : Nat, setU word w lsb v = .ok word' →
      (word' ^^^ word) &&& ~~~(BitVec.ofNat 64 ((2 ^ w - 1) <<< lsb)) = 0#64) ∧
    (∀ v : Int, setS word w lsb v = .ok word' →
      (word' ^^^ word) &&& ~~~(BitVec.ofNat 64 ((2 ^ w - 1) <<< lsb)) = 0#64) ∧
    (∀ v : Nat, 1 ≤ w → getU word w lsb = .ok v → setU word w lsb v = .ok word) ∧
    (∀ v : Int, 1 ≤ w → getS word w lsb = .ok v → setS word w lsb v = .ok word)

/-! ### CodewordCodec (42_codec.md) -/

/-- CW.PACK, R131: the six fields at the bits of R130, or OverflowError if one does not fit. -/
def Obligations.CwPackResult : Prop :=
  ∀ (s : State) (xd xs : Reg), xs.val ≤ 26 →
    (BlockFits (readBlock s xs) → Completes (.cwPack xd xs) s (· = xd) noReg fun t =>
      HasLayout (t.readX xd) (readBlock s xs)) ∧
    (¬BlockFits (readBlock s xs) → Raises (.cwPack xd xs) s .overflowError)

/-- CW.UNPACK, R132: the six fields to XG(xd, 6), signed ones sign-extended; PreconditionViolation if
the source is no 32-bit codeword. -/
def Obligations.CwUnpackResult : Prop :=
  ∀ (s : State) (xd xs : Reg), xd.val ≤ 26 →
    ((s.readX xs).extractLsb' 32 32 = 0#32 →
      Completes (.cwUnpack xd xs) s (inGroup xd 6) noReg fun t =>
        HasLayout (s.readX xs) (readBlock t xd)) ∧
    ((s.readX xs).extractLsb' 32 32 ≠ 0#32 → Raises (.cwUnpack xd xs) s .preconditionViolation)

/-- R133: packing and unpacking are inverse, and every 32-bit word is the codeword of exactly one block
in the field ranges. -/
def Obligations.PackUnpackAreInverse : Prop :=
  (∀ (k : ScaledDctBlock) (cw : Word64), pack k = .ok cw →
    unpack cw = .ok k ∧ cw.toNat < 2 ^ 32) ∧
  (∀ cw : Word64, cw.toNat < 2 ^ 32 → ∃ k, unpack cw = .ok k ∧ BlockFits k ∧ pack k = .ok cw ∧
    ∀ k', pack k' = .ok cw → k' = k)

/-- R134: deserialization is big-endian, cannot fail, and takes the four bytes of a codeword back to
it. -/
def Obligations.SerializationIsBigEndian : Prop :=
  (∀ b0 b1 b2 b3 : Byte, deserialize b0 b1 b2 b3 =
    .ok (BitVec.ofNat 64
      (b0.toNat * 2 ^ 24 + b1.toNat * 2 ^ 16 + b2.toNat * 2 ^ 8 + b3.toNat))) ∧
  (∀ cw : Word64, cw.toNat < 2 ^ 32 →
    deserialize (cw.extractLsb' 24 8) (cw.extractLsb' 16 8) (cw.extractLsb' 8 8)
      (cw.extractLsb' 0 8) = .ok cw)

/-- CW.EMIT, R137 and the byte order of R63: four bytes at the end of OUT, most significant first, and 4
on OUTCOUNT; nothing else changes. -/
def Obligations.CwEmitResult : Prop :=
  ∀ (s : State) (xs : Reg),
    let cw := s.readX xs
    (cw.extractLsb' 32 32 = 0#32 → ∃ t, exec (.cwEmit xs) s = .next t ∧
      t.outStream = s.outStream ++
        [cw.extractLsb' 24 8, cw.extractLsb' 16 8, cw.extractLsb' 8 8, cw.extractLsb' 0 8] ∧
      t.outCount.toNat = (s.outCount.toNat + 4) % 2 ^ 64 ∧
      t.answers = s.answers ++ [.done] ∧ KeepsX s t noReg ∧ KeepsF s t noReg ∧
      t.denom = s.denom ∧ t.inStream = s.inStream ∧ t.inClosed = s.inClosed ∧ KeepsControl s t) ∧
    (cw.extractLsb' 32 32 ≠ 0#32 → Raises (.cwEmit xs) s .preconditionViolation)

/-- CW.FETCH with four bytes or more, R138: the four oldest leave IN, X[xd] holds the codeword they
spell most significant byte first, WAITING is 0 and the answer is DONE, open or closed. -/
def Obligations.CwFetchResult : Prop :=
  ∀ (s : State) (xd : Reg) (b0 b1 b2 b3 : Byte) (rest : List Byte),
    s.inStream = b0 :: b1 :: b2 :: b3 :: rest → ∃ t, exec (.cwFetch xd) s = .next t ∧
      (t.readX xd).toNat =
        b0.toNat * 2 ^ 24 + b1.toNat * 2 ^ 16 + b2.toNat * 2 ^ 8 + b3.toNat ∧
      t.inStream = rest ∧ t.held = none ∧ t.answers = s.answers ++ [.done] ∧
      KeepsX s t (· = xd) ∧ KeepsF s t noReg ∧ t.denom = s.denom ∧ t.inClosed = s.inClosed ∧
      t.outStream = s.outStream ∧ t.outCount = s.outCount ∧ t.err = s.err ∧
      t.faultCmd = s.faultCmd ∧ t.portWords = s.portWords ∧ t.config = s.config ∧
      t.hostOps = s.hostOps

/-- CW.FETCH with fewer than four bytes, R138: TruncatedStreamError on a closed stream; on an open one
the unit is WAITING, with no answer and nothing else changed. -/
def Obligations.CwFetchOnShortStream : Prop :=
  ∀ (s : State) (xd : Reg), s.inStream.length < 4 →
    (s.inClosed = true → Raises (.cwFetch xd) s .truncatedStreamError) ∧
    (s.inClosed = false → s.err = none → ∃ t, exec (.cwFetch xd) s = .next t ∧
      t = { s with held := some xd } ∧ t.runState = .waiting)

/-- R138, R237: a held fetch is lifted by the host only. The fourth byte completes it, a close before
that ends it in TruncatedStreamError with every byte still there, any other push adds its byte and leaves it
held, as do a drain, a control register read and an issued word, and with no host operation coming the
unit stays as it is. That the fetch is evaluated within the step of the push or close, and that a step
without a host operation leaves the state as it is, are the model's choices of notes/assumptions/12.md
and notes/assumptions/4.md. -/
def Obligations.HeldFetchWaitsForTheHost : Prop :=
  ∀ (s : State) (xd : Reg), s.Inv → s.held = some xd →
    (∀ b0 b1 b2 b3, s.inStream = [b0, b1, b2] → ∃ t, hostMove (.pushIn b3) s = .next t ∧
      (t.readX xd).toNat =
        b0.toNat * 2 ^ 24 + b1.toNat * 2 ^ 16 + b2.toNat * 2 ^ 8 + b3.toNat ∧
      t.inStream = [] ∧ t.runState = .idle ∧ t.answers = s.answers ++ [.done] ∧
      KeepsX s t (· = xd)) ∧
    (∃ t, hostMove .closeIn s = .next t ∧ t.err = some .truncatedStreamError ∧
      t.faultCmd = encode (.cwFetch xd) ∧ t.inStream = s.inStream ∧ t.held = none ∧
      t.answers = s.answers ++ [.error .truncatedStreamError] ∧ KeepsX s t noReg) ∧
    (∀ b, s.inStream.length < 3 → hostMove (.pushIn b) s =
      .next { s with inStream := s.inStream ++ [b] }) ∧
    (∀ op t, (op = .drainOut ∨ (∃ n, op = .readCR n) ∨ ∃ w, op = .issue w) →
      hostMove op s = .next t → t.held = some xd ∧ t.inStream = s.inStream) ∧
    (s.hostOps = [] → step s = .next s)

/-! ### Real numbers (00_scope.md section 4) -/

/-- The patterns of R14 by their slices: finite exactly when the biased exponent is not 255, so an infinity
or a NaN is not finite, and the value by sign, exponent and fraction, with the subnormal form at exponent
0 and both zeros 0. -/
def Obligations.PatternsAreBinary32 : Prop :=
  (∀ b : Word32,
    let E := (b.extractLsb' 23 8).toNat
    let M : ℚ := ((b.extractLsb' 0 23).toNat : ℚ)
    let sign : ℚ := (-1) ^ (b.extractLsb' 31 1).toNat
    (isFinite b = true ↔ E ≠ 255) ∧
    (1 ≤ E → E ≤ 254 → val32 b = sign * (2 : ℚ) ^ ((E : Int) - 127) * (1 + M / 2 ^ 23)) ∧
    (E = 0 → val32 b = sign * (2 : ℚ) ^ (-126 : Int) * (M / 2 ^ 23))) ∧
  val32 0x00000000#32 = 0 ∧ val32 0x80000000#32 = 0

/-- `rnd32` is round to nearest: below the overflow threshold it gives a finite pattern whose value is
as near as any finite pattern's, and from the threshold on the infinity of the sign. -/
def Obligations.RoundingIsToNearest : Prop :=
  ∀ q : ℚ,
    (|q| < 2 ^ 128 - 2 ^ 103 → isFinite (rnd32 q) = true ∧
      ∀ b : Word32, isFinite b = true → |q - val32 (rnd32 q)| ≤ |q - val32 b|) ∧
    (2 ^ 128 - 2 ^ 103 ≤ q → rnd32 q = 0x7F800000#32) ∧
    (q ≤ -(2 ^ 128 - 2 ^ 103) → rnd32 q = 0xFF800000#32)

/-- `rnd32` breaks a tie between two finite values toward the even fraction. -/
def Obligations.RoundingTiesToEven : Prop :=
  ∀ (q : ℚ) (b : Word32), |q| < 2 ^ 128 - 2 ^ 103 → isFinite b = true →
    val32 b ≠ val32 (rnd32 q) → |q - val32 (rnd32 q)| = |q - val32 b| →
    (rnd32 q).getLsbD 0 = false

/-- `rnd32` keeps the sign of what it rounds, of an infinity and of a zero too, and 0 itself gives +0. -/
def Obligations.RoundingKeepsTheSign : Prop :=
  (∀ q : ℚ, 0 < q → (rnd32 q).getLsbD 31 = false) ∧
  (∀ q : ℚ, q < 0 → (rnd32 q).getLsbD 31 = true) ∧ rnd32 0 = 0x00000000#32

/-- A finite pattern's value rounds back to the pattern, but for -0, whose value 0 rounds to +0. -/
def Obligations.RoundingIsExactOnValues : Prop :=
  (∀ b : Word32, isFinite b = true → b ≠ 0x80000000#32 → rnd32 (val32 b) = b) ∧
  rnd32 (val32 0x80000000#32) = 0x00000000#32

/-! ### Quantizer (43_quantizer.md) -/

/-- Q.FA, R151: `floor(a * 511)` when that is in 0..511, OverflowError when it is not, and
PreconditionViolation for a NaN or an infinity. -/
def Obligations.QFAResult : Prop :=
  ∀ (s : State) (xd fs : Reg),
    (isFinite (s.readF fs) = false → Raises (.qFA xd fs) s .preconditionViolation) ∧
    (isFinite (s.readF fs) = true →
      (∀ n : Nat, n ≤ 511 → (n : ℚ) ≤ val32 (s.readF fs) * 511 →
        val32 (s.readF fs) * 511 < (n : ℚ) + 1 →
        Completes (.qFA xd fs) s (· = xd) noReg fun t => (t.readX xd).toNat = n) ∧
      (val32 (s.readF fs) < 0 ∨ 512 ≤ val32 (s.readF fs) * 511 →
        Raises (.qFA xd fs) s .overflowError))

/-- Q.FBCD, R152: clamped at 3/10 to 15 and at -3/10 to -15, otherwise `v * 50` rounded toward zero, of
size at most 14; PreconditionViolation for a NaN or an infinity. -/
def Obligations.QFBCDResult : Prop :=
  ∀ (s : State) (xd fs : Reg),
    let v := val32 (s.readF fs)
    (isFinite (s.readF fs) = false → Raises (.qFBCD xd fs) s .preconditionViolation) ∧
    (isFinite (s.readF fs) = true →
      Completes (.qFBCD xd fs) s (· = xd) noReg fun t =>
        let n := (t.readX xd).toInt
        (3 / 10 ≤ v → n = 15) ∧ (v ≤ -(3 / 10) → n = -15) ∧
        (-(3 / 10) < v → v < 3 / 10 → -14 ≤ n ∧ n ≤ 14 ∧
          (0 ≤ v → (n : ℚ) ≤ v * 50 ∧ v * 50 < n + 1) ∧
          (v ≤ 0 → (n : ℚ) - 1 < v * 50 ∧ v * 50 ≤ n)))

/-- R152: quantized coefficients never raise OverflowError during packing, whatever the finite inputs. -/
def Obligations.QuantizedCoefficientsPack : Prop :=
  ∀ (fb fc fd : Word32) (a i1 i0 : Nat),
    isFinite fb = true → isFinite fc = true → isFinite fd = true → a ≤ 511 → i1 ≤ 15 → i0 ≤ 15 →
    ∃ b c d cw, quantizeBCD fb = .ok b ∧ quantizeBCD fc = .ok c ∧ quantizeBCD fd = .ok d ∧
      (∀ n ∈ [b, c, d], -15 ≤ n ∧ n ≤ 15) ∧ pack ⟨a, b, c, d, i1, i0⟩ = .ok cw

/-- Q.IA and Q.IBCD, R153 and R154: the rounded quotient by 511 and by 50, or PreconditionViolation for a
source outside the field's range. -/
def Obligations.QIAandQIBCDResult : Prop :=
  ∀ (s : State) (fd xs : Reg),
    ((s.readX xs).toNat ≤ 511 → Completes (.qIA fd xs) s noReg (· = fd) fun t =>
      t.readF fd = rnd32 (((s.readX xs).toNat : ℚ) / 511)) ∧
    (511 < (s.readX xs).toNat → Raises (.qIA fd xs) s .preconditionViolation) ∧
    (-16 ≤ (s.readX xs).toInt → (s.readX xs).toInt ≤ 15 →
      Completes (.qIBCD fd xs) s noReg (· = fd) fun t =>
        t.readF fd = rnd32 (((s.readX xs).toInt : ℚ) / 50)) ∧
    ((s.readX xs).toInt < -16 ∨ 15 < (s.readX xs).toInt →
      Raises (.qIBCD fd xs) s .preconditionViolation)

/-- Q.CIDX, R156 and R157: the least of the nearest entries of the table, for any table; no finite
chroma value fails. -/
def Obligations.QCIdxIsLeastNearest : Prop :=
  ∀ (s : State) (xd fs : Reg),
    let v := val32 (s.readF fs)
    let dist := fun j : Fin 16 => |v - val32 s.config.chromaTable[j]|
    (isFinite (s.readF fs) = false → Raises (.qCIdx xd fs) s .preconditionViolation) ∧
    (isFinite (s.readF fs) = true → Completes (.qCIdx xd fs) s (· = xd) noReg fun t =>
      ∃ i : Fin 16, (t.readX xd).toNat = i.val ∧ (∀ j, dist i ≤ dist j) ∧
        ∀ j < i, dist i < dist j)

/-- Q.CVAL, R158: an exact copy of the table's pattern, or PreconditionViolation above 15. -/
def Obligations.QCValResult : Prop :=
  ∀ (s : State) (fd xs : Reg),
    (∀ i : Fin 16, (s.readX xs).toNat = i.val → Completes (.qCVal fd xs) s noReg (· = fd) fun t =>
      t.readF fd = s.config.chromaTable[i]) ∧
    (15 < (s.readX xs).toNat → Raises (.qCVal fd xs) s .preconditionViolation)

/-- R158: with the default table, and with any table of distinct finite values, Q.CIDX of Q.CVAL(i) is
i. -/
def Obligations.ChromaLookupInvertsItself : Prop :=
  (∀ (table : Vector Word32 16) (i : Fin 16),
    (∀ j k : Fin 16, val32 table[j] = val32 table[k] → j = k) →
    chromaIndexOf table (val32 table[i]) = i) ∧
  (∀ j k : Fin 16,
    val32 Config.default.chromaTable[j] = val32 Config.default.chromaTable[k] → j = k)

/-! ### Block transformer (44_dct.md) -/

/-- DCT.FWD, R171: the six exact combinations of the quad, each rounded once, whatever the overlap of
the groups; PreconditionViolation if a source is not finite. -/
def Obligations.DctFwdResult : Prop :=
  ∀ (s : State) (fd fs : Reg), fd.val ≤ 26 → fs.val ≤ 20 →
    let v := fun k => val32 (s.readF (groupReg fs k))
    ((∀ k < 12, isFinite (s.readF (groupReg fs k)) = true) →
      Completes (.dctFwd fd fs) s noReg (inGroup fd 6) fun t =>
        t.readF (groupReg fd 0) = rnd32 ((v 0 + v 3 + v 6 + v 9) / 4) ∧
        t.readF (groupReg fd 1) = rnd32 ((v 6 + v 9 - v 0 - v 3) / 4) ∧
        t.readF (groupReg fd 2) = rnd32 ((v 3 + v 9 - v 0 - v 6) / 4) ∧
        t.readF (groupReg fd 3) = rnd32 ((v 0 + v 9 - v 3 - v 6) / 4) ∧
        t.readF (groupReg fd 4) = rnd32 ((v 1 + v 4 + v 7 + v 10) / 4) ∧
        t.readF (groupReg fd 5) = rnd32 ((v 2 + v 5 + v 8 + v 11) / 4)) ∧
    ((∃ k < 12, isFinite (s.readF (groupReg fs k)) = false) →
      Raises (.dctFwd fd fs) s .preconditionViolation)

/-- DCT.INV, R172: the four exact luma combinations, each rounded once, and the chroma pair copied to
every pixel; PreconditionViolation if a source is not finite. -/
def Obligations.DctInvResult : Prop :=
  ∀ (s : State) (fd fs : Reg), fd.val ≤ 20 → fs.val ≤ 26 →
    let v := fun k => val32 (s.readF (groupReg fs k))
    ((∀ k < 6, isFinite (s.readF (groupReg fs k)) = true) →
      Completes (.dctInv fd fs) s noReg (inGroup fd 12) fun t =>
        t.readF (groupReg fd 0) = rnd32 (v 0 - v 1 - v 2 + v 3) ∧
        t.readF (groupReg fd 3) = rnd32 (v 0 - v 1 + v 2 - v 3) ∧
        t.readF (groupReg fd 6) = rnd32 (v 0 + v 1 - v 2 - v 3) ∧
        t.readF (groupReg fd 9) = rnd32 (v 0 + v 1 + v 2 + v 3) ∧
        ∀ p < 4, t.readF (groupReg fd (3 * p + 1)) = s.readF (groupReg fs 4) ∧
          t.readF (groupReg fd (3 * p + 2)) = s.readF (groupReg fs 5)) ∧
    ((∃ k < 6, isFinite (s.readF (groupReg fs k)) = false) →
      Raises (.dctInv fd fs) s .preconditionViolation)

/-- R173: the two matrices are exactly inverse, both ways. -/
def Obligations.LumaMatricesAreInverse : Prop :=
  (∀ q : LumaQuad, inverseLuma (forwardLuma q) = q) ∧
  (∀ k : LumaCoeffs, forwardLuma (inverseLuma k) = k)

/-- R173, last part: if every Y is a multiple of 2^-22 in [0,1], a forward command followed by an inverse
one returns the luma inputs exactly, since nothing is then rounded. -/
def Obligations.DctRoundTripIsExact : Prop :=
  ∀ (s : State) (fc fs fd : Reg), fc.val ≤ 26 → fs.val ≤ 20 → fd.val ≤ 20 →
    (∀ k < 12, isFinite (s.readF (groupReg fs k)) = true) →
    (∀ p < 4, ∃ n : Nat, n ≤ 2 ^ 22 ∧ val32 (s.readF (groupReg fs (3 * p))) = (n : ℚ) / 2 ^ 22) →
    ∃ t u, exec (.dctFwd fc fs) s = .next t ∧ exec (.dctInv fd fc) t = .next u ∧
      u.answers = s.answers ++ [.done, .done] ∧
      ∀ p < 4, val32 (u.readF (groupReg fd (3 * p))) = val32 (s.readF (groupReg fs (3 * p)))

/-! ### Colour-space converter (45_color.md) -/

/-- CC.FWD, R180 and R182: the three exact combinations of the channels over DENOM, each rounded once;
PreconditionViolation when DENOM is 0 or a channel exceeds it. With legal channels y lies in [0,1] and
the chroma differences in [-1/2, 1/2], so the check on y never fails. The row sums are 1, 0 and 0. -/
def Obligations.CcFwdResult : Prop :=
  ((0.299 : ℚ) + 0.587 + 0.114 = 1 ∧ (-0.168736 : ℚ) - 0.331264 + 0.5 = 0 ∧
    (0.5 : ℚ) - 0.418688 - 0.081312 = 0) ∧
  ∀ (s : State) (fd xs : Reg), fd.val ≤ 29 → xs.val ≤ 29 →
    let D := s.denom.toNat
    let ch := fun k => (s.readX (groupReg xs k)).toNat
    let r : ℚ := ch 0 / D
    let g : ℚ := ch 1 / D
    let b : ℚ := ch 2 / D
    let y : ℚ := 0.299 * r + 0.587 * g + 0.114 * b
    let pB : ℚ := -0.168736 * r - 0.331264 * g + 0.5 * b
    let pR : ℚ := 0.5 * r - 0.418688 * g - 0.081312 * b
    (0 < D → (∀ k < 3, ch k ≤ D) →
      (0 ≤ y ∧ y ≤ 1 ∧ |pB| ≤ 1 / 2 ∧ |pR| ≤ 1 / 2) ∧
      Completes (.ccFwd fd xs) s noReg (inGroup fd 3) fun t =>
        t.readF (groupReg fd 0) = rnd32 y ∧ t.readF (groupReg fd 1) = rnd32 pB ∧
        t.readF (groupReg fd 2) = rnd32 pR) ∧
    (D = 0 ∨ (∃ k < 3, D < ch k) → Raises (.ccFwd fd xs) s .preconditionViolation)

/-- R182, corner cases at every grey: equal channels give chroma +0 and luma the rounded ratio; white
gives exactly 1. -/
def Obligations.GreyPixelsHaveNoChroma : Prop :=
  ∀ (s : State) (fd xs : Reg), fd.val ≤ 29 → xs.val ≤ 29 → 0 < s.denom.toNat →
    (∀ k < 3, s.readX (groupReg xs k) = s.readX xs) → (s.readX xs).toNat ≤ s.denom.toNat →
    ∃ t, exec (.ccFwd fd xs) s = .next t ∧
      t.readF (groupReg fd 0) = rnd32 ((s.readX xs).toNat / s.denom.toNat) ∧
      t.readF (groupReg fd 1) = 0x00000000#32 ∧ t.readF (groupReg fd 2) = 0x00000000#32 ∧
      (s.readX xs = s.denom → t.readF (groupReg fd 0) = 0x3F800000#32)

/-- CC.INV, R181 and R183: each channel is the exact combination, clamped to [0,1], scaled by DENOM and
rounded to the nearest integer with ties up, and so lies in 0..DENOM; PreconditionViolation when DENOM
is 0 or a source is not finite. -/
def Obligations.CcInvResult : Prop :=
  ∀ (s : State) (xd fs : Reg), xd.val ≤ 29 → fs.val ≤ 29 →
    let D := s.denom.toNat
    let v := fun k => val32 (s.readF (groupReg fs k))
    let r : ℚ := v 0 + 1.402 * v 2
    let g : ℚ := v 0 - 0.344136 * v 1 - 0.714136 * v 2
    let b : ℚ := v 0 + 1.772 * v 1
    (0 < D → (∀ k < 3, isFinite (s.readF (groupReg fs k)) = true) →
      Completes (.ccInv xd fs) s (inGroup xd 3) noReg fun t =>
        RoundsTo (min (max r 0) 1 * D) (t.readX (groupReg xd 0)).toNat ∧
        RoundsTo (min (max g 0) 1 * D) (t.readX (groupReg xd 1)).toNat ∧
        RoundsTo (min (max b 0) 1 * D) (t.readX (groupReg xd 2)).toNat ∧
        ∀ k < 3, (t.readX (groupReg xd k)).toNat ≤ D) ∧
    (D = 0 ∨ (∃ k < 3, isFinite (s.readF (groupReg fs k)) = false) →
      Raises (.ccInv xd fs) s .preconditionViolation)

/-! ### Control registers (46_control.md) -/

/-- CR.RD, R190 with the map of R37: STATUS, DENOM, INCOUNT, OUTCOUNT, FAULTCMD, zero-extended; in an IDLE
unit STATUS shows INCLOSED alone. -/
def Obligations.CrRdResult : Prop :=
  ∀ (s : State) (xd : Reg),
    Completes (.crRd xd 0) s (· = xd) noReg (fun t => t.readX xd = s.status ∧
      (s.runState = .idle → t.readX xd = if s.inClosed then 0x10#64 else 0#64)) ∧
    Completes (.crRd xd 1) s (· = xd) noReg (fun t => t.readX xd = s.denom) ∧
    Completes (.crRd xd 2) s (· = xd) noReg (fun t =>
      (t.readX xd).toNat = s.inStream.length % 2 ^ 64) ∧
    Completes (.crRd xd 3) s (· = xd) noReg (fun t => t.readX xd = s.outCount) ∧
    Completes (.crRd xd 4) s (· = xd) noReg (fun t =>
      (t.readX xd).toNat = s.faultCmd.toNat) ∧
    ∀ crn : Reg, 4 < crn.val → Raises (.crRd xd crn) s .illegalCommand

/-- CR.WR, R191: DENOM takes any value of the source, 0 included, and nothing else changes; another
control register number is IllegalCommand. -/
def Obligations.CrWrResult : Prop :=
  ∀ (s : State) (xs : Reg),
    (∃ t, exec (.crWr 1 xs) s = .next t ∧ t.denom = s.readX xs ∧
      t.answers = s.answers ++ [.done] ∧ KeepsX s t noReg ∧ KeepsF s t noReg ∧
      KeepsStreams s t ∧ KeepsControl s t) ∧
    ∀ crn : Reg, crn.val ≠ 1 → Raises (.crWr crn xs) s .illegalCommand
end

