-- ==== Sys2Proof/Laws/BitField.lean ====
section
/-! SUPPORT. One lemma per BitField primitive, in terms of bit slices: what it answers inside its range
and which error it raises outside. -/

namespace Sys2Proof.Machine

theorem fieldPre_iff {w lsb : Nat} : fieldPre w lsb = true ↔ w + lsb ≤ 64 := by
  simp only [fieldPre, Bool.and_eq_true, decide_eq_true_eq]
  omega

theorem fitsU_eq {w : Nat} (v : Nat) (h : w ≤ 64) :
    fitsU v w = .ok (decide (0 < w ∧ v < 2 ^ w)) := by
  have : ¬64 < w := by omega
  by_cases h0 : w = 0
  · simp [fitsU, h0]
  · have : 0 < w := by omega
    simp [fitsU, *]

theorem fitsS_eq {w : Nat} (v : Int) (h : w ≤ 64) :
    fitsS v w = .ok (decide (0 < w ∧ -2 ^ (w - 1) ≤ v ∧ v ≤ 2 ^ (w - 1) - 1)) := by
  have : ¬64 < w := by omega
  by_cases h0 : w = 0
  · simp [fitsS, h0]
  · have : 0 < w := by omega
    simp [fitsS, *]

theorem getU_eq {word : Word64} {w lsb : Nat} (h : w + lsb ≤ 64) :
    getU word w lsb = .ok (word.extractLsb' lsb w).toNat := by
  have hp : fieldPre w lsb = true := fieldPre_iff.2 h
  by_cases h0 : w = 0
  · subst h0
    simp [getU, hp]
  · simp [getU, hp, h0, BitVec.extractLsb'_toNat, Nat.and_two_pow_sub_one_eq_mod]

theorem getU_error {word : Word64} {w lsb : Nat} (h : ¬w + lsb ≤ 64) :
    getU word w lsb = .error .preconditionViolation := by
  have hp : fieldPre w lsb = false := by
    rw [Bool.eq_false_iff]; exact fun hc => h (fieldPre_iff.1 hc)
  simp [getU, hp]

theorem getS_eq {word : Word64} {w lsb : Nat} (h : w + lsb ≤ 64) :
    getS word w lsb = .ok (word.extractLsb' lsb w).toInt := by
  rw [getS, getU_eq h]
  by_cases h0 : w = 0
  · subst h0
    simp [BitVec.toInt_zero_length]
  · have hm : (word.extractLsb' lsb w).toNat.testBit (w - 1) = (word.extractLsb' lsb w).msb := by
      rw [BitVec.msb_eq_getLsbD_last, BitVec.testBit_toNat]
    simp only [h0, if_false, hm, BitVec.toInt_eq_msb_cond]
    split <;> simp

theorem getS_error {word : Word64} {w lsb : Nat} (h : ¬w + lsb ≤ 64) :
    getS word w lsb = .error .preconditionViolation := by
  simp [getS, getU_error h]

/-- Bit `k` of a word with a field inserted. -/
theorem getLsbD_insertField (word : Word64) (w lsb bits k : Nat) (hk : k < 64) (hb : bits < 2 ^ w) :
    (insertField word w lsb bits).getLsbD k =
      if lsb ≤ k ∧ k < lsb + w then bits.testBit (k - lsb) else word.getLsbD k := by
  have hsmall : k - lsb ≥ w → bits.testBit (k - lsb) = false := fun h =>
    Nat.testBit_lt_two_pow (lt_of_lt_of_le hb (Nat.pow_le_pow_right (by decide) h))
  simp only [insertField, fieldMask, BitVec.getLsbD_or, BitVec.getLsbD_and, BitVec.getLsbD_not,
    BitVec.getLsbD_ofNat, Nat.testBit_shiftLeft, Nat.testBit_two_pow_sub_one, hk, decide_true,
    Bool.true_and]
  by_cases h1 : lsb ≤ k
  · by_cases h2 : k < lsb + w
    · have : k - lsb < w := by omega
      simp [h1, h2, this]
    · have : ¬k - lsb < w := by omega
      simp [h1, h2, this, hsmall (by omega)]
  · simp [h1]

theorem setU_eq {word : Word64} {w lsb v : Nat} (h : w + lsb ≤ 64) (hw : 0 < w) (hv : v < 2 ^ w) :
    setU word w lsb v = .ok (insertField word w lsb v) := by
  simp [setU, fieldPre_iff.2 h, fitsU_eq v (by omega : w ≤ 64), hw, hv]

theorem setU_overflow {word : Word64} {w lsb v : Nat} (h : w + lsb ≤ 64)
    (hv : ¬(0 < w ∧ v < 2 ^ w)) : setU word w lsb v = .error .overflowError := by
  simp only [setU, fieldPre_iff.2 h, fitsU_eq v (by omega : w ≤ 64), decide_eq_false hv]
  rfl

theorem setU_error {word : Word64} {w lsb v : Nat} (h : ¬w + lsb ≤ 64) :
    setU word w lsb v = .error .preconditionViolation := by
  have hp : fieldPre w lsb = false := by
    rw [Bool.eq_false_iff]; exact fun hc => h (fieldPre_iff.1 hc)
  simp [setU, hp]

theorem setS_eq {word : Word64} {w lsb : Nat} {v : Int} (h : w + lsb ≤ 64) (hw : 0 < w)
    (hv : -2 ^ (w - 1) ≤ v ∧ v ≤ 2 ^ (w - 1) - 1) :
    setS word w lsb v = .ok (insertField word w lsb (v % 2 ^ w).toNat) := by
  simp [setS, fieldPre_iff.2 h, fitsS_eq v (by omega : w ≤ 64), hw, hv]

theorem setS_overflow {word : Word64} {w lsb : Nat} {v : Int} (h : w + lsb ≤ 64)
    (hv : ¬(0 < w ∧ -2 ^ (w - 1) ≤ v ∧ v ≤ 2 ^ (w - 1) - 1)) :
    setS word w lsb v = .error .overflowError := by
  simp only [setS, fieldPre_iff.2 h, fitsS_eq v (by omega : w ≤ 64), decide_eq_false hv]
  rfl

theorem setS_error {word : Word64} {w lsb : Nat} {v : Int} (h : ¬w + lsb ≤ 64) :
    setS word w lsb v = .error .preconditionViolation := by
  have hp : fieldPre w lsb = false := by
    rw [Bool.eq_false_iff]; exact fun hc => h (fieldPre_iff.1 hc)
  simp [setS, hp]

/-- The inserted field reads back as the inserted bits. -/
theorem extractLsb'_insertField_same (word : Word64) {w lsb bits : Nat} (h : w + lsb ≤ 64)
    (hb : bits < 2 ^ w) : (insertField word w lsb bits).extractLsb' lsb w = BitVec.ofNat w bits := by
  apply BitVec.eq_of_getLsbD_eq
  intro k hk
  rw [BitVec.getLsbD_extractLsb', getLsbD_insertField word w lsb bits _ (by omega) hb]
  rw [BitVec.getLsbD_ofNat]
  simp [hk]

/-- A field apart from the inserted one keeps its bits. -/
theorem extractLsb'_insertField_disjoint (word : Word64) {w lsb bits w' lsb' : Nat}
    (h : w' + lsb' ≤ 64) (hb : bits < 2 ^ w) (hd : lsb' + w' ≤ lsb ∨ lsb + w ≤ lsb') :
    (insertField word w lsb bits).extractLsb' lsb' w' = word.extractLsb' lsb' w' := by
  apply BitVec.eq_of_getLsbD_eq
  intro k hk
  rw [BitVec.getLsbD_extractLsb', BitVec.getLsbD_extractLsb',
    getLsbD_insertField word w lsb bits _ (by omega) hb]
  have : ¬(lsb ≤ lsb' + k ∧ lsb' + k < lsb + w) := by omega
  simp [this]

/-- The two's-complement bits of a signed value fit their width. -/
theorem emod_two_pow_lt (v : Int) (w : Nat) : (v % 2 ^ w).toNat < 2 ^ w := by
  have h0 : (0 : Int) < 2 ^ w := by positivity
  have h1 : v % 2 ^ w < 2 ^ w := Int.emod_lt_of_pos v h0
  have h2 : 0 ≤ v % 2 ^ w := Int.emod_nonneg v h0.ne'
  have h3 : ((v % 2 ^ w).toNat : Int) < ((2 ^ w : Nat) : Int) := by
    rw [Int.toNat_of_nonneg h2]; exact_mod_cast h1
  exact_mod_cast h3

/-- The two's-complement bits of a signed value that fits read back as the value. -/
theorem toInt_ofNat_emod {w : Nat} (v : Int) (hw : 0 < w) (h1 : -2 ^ (w - 1) ≤ v)
    (h2 : v ≤ 2 ^ (w - 1) - 1) : (BitVec.ofNat w (v % 2 ^ w).toNat).toInt = v := by
  have e : BitVec.ofNat w (v % 2 ^ w).toNat = BitVec.ofInt w v := by
    apply BitVec.eq_of_toNat_eq
    simp only [BitVec.toNat_ofNat, BitVec.toNat_ofInt]
    rw [Nat.mod_eq_of_lt (emod_two_pow_lt v w)]
    push_cast
    rfl
  rw [e, BitVec.toInt_ofInt_eq_self hw h1 (by omega)]

end Sys2Proof.Machine
end

