-- ==== Sys2Proof/Laws/Codec.lean ====
section
/-! SUPPORT. Packing, unpacking and deserialization in one lemma each: the word as a chain of field
insertions when every field fits, and the slices that come back. -/

namespace Sys2Proof.Machine

/-- Deserialization never fails (R134): it is four insertions into word 0. -/
theorem deserialize_eq (b0 b1 b2 b3 : Byte) :
    deserialize b0 b1 b2 b3 =
      .ok (insertField (insertField (insertField (insertField 0#64 8 24 b0.toNat) 8 16 b1.toNat)
        8 8 b2.toNat) 8 0 b3.toNat) := by
  have h (b : Byte) : b.toNat < 2 ^ 8 := b.isLt
  simp only [deserialize, Except.bind,
    setU_eq (show 8 + 24 ≤ 64 by decide) (by decide) (h b0),
    setU_eq (show 8 + 16 ≤ 64 by decide) (by decide) (h b1),
    setU_eq (show 8 + 8 ≤ 64 by decide) (by decide) (h b2),
    setU_eq (show 8 + 0 ≤ 64 by decide) (by decide) (h b3)]

/-- Unpacking never fails (R132): each component is its slice. -/
theorem unpack_eq (cw : Word64) :
    unpack cw = .ok
      { a := (cw.extractLsb' 23 9).toNat
        b := (cw.extractLsb' 18 5).toInt
        c := (cw.extractLsb' 13 5).toInt
        d := (cw.extractLsb' 8 5).toInt
        i1 := (cw.extractLsb' 4 4).toNat
        i0 := (cw.extractLsb' 0 4).toNat } := by
  simp only [unpack, Except.bind, Except.map,
    getU_eq (show 9 + 23 ≤ 64 by decide), getU_eq (show 4 + 4 ≤ 64 by decide),
    getU_eq (show 4 + 0 ≤ 64 by decide), getS_eq (show 5 + 18 ≤ 64 by decide),
    getS_eq (show 5 + 13 ≤ 64 by decide), getS_eq (show 5 + 8 ≤ 64 by decide)]

/-- Packing a block whose fields all fit is six insertions into word 0 (R131). -/
theorem pack_eq {k : ScaledDctBlock} (ha : k.a ≤ 511) (hb : -16 ≤ k.b ∧ k.b ≤ 15)
    (hc : -16 ≤ k.c ∧ k.c ≤ 15) (hd : -16 ≤ k.d ∧ k.d ≤ 15) (h1 : k.i1 ≤ 15) (h0 : k.i0 ≤ 15) :
    pack k = .ok (insertField (insertField (insertField (insertField (insertField (insertField
      0#64 9 23 k.a) 5 18 (k.b % 2 ^ 5).toNat) 5 13 (k.c % 2 ^ 5).toNat) 5 8 (k.d % 2 ^ 5).toNat)
      4 4 k.i1) 4 0 k.i0) := by
  have s (v : Int) (hv : -16 ≤ v ∧ v ≤ 15) : -2 ^ (5 - 1) ≤ v ∧ v ≤ 2 ^ (5 - 1) - 1 := by
    norm_num; omega
  simp only [pack, Except.bind,
    setU_eq (show 9 + 23 ≤ 64 by decide) (by decide) (show k.a < 2 ^ 9 by omega),
    setS_eq (show 5 + 18 ≤ 64 by decide) (by decide) (s k.b hb),
    setS_eq (show 5 + 13 ≤ 64 by decide) (by decide) (s k.c hc),
    setS_eq (show 5 + 8 ≤ 64 by decide) (by decide) (s k.d hd),
    setU_eq (show 4 + 4 ≤ 64 by decide) (by decide) (show k.i1 < 2 ^ 4 by omega),
    setU_eq (show 4 + 0 ≤ 64 by decide) (by decide) (show k.i0 < 2 ^ 4 by omega)]

/-- Packing a block with a field that does not fit raises OverflowError (R131). -/
theorem pack_overflow {k : ScaledDctBlock}
    (h : ¬(k.a ≤ 511 ∧ (-16 ≤ k.b ∧ k.b ≤ 15) ∧ (-16 ≤ k.c ∧ k.c ≤ 15) ∧ (-16 ≤ k.d ∧ k.d ≤ 15) ∧
      k.i1 ≤ 15 ∧ k.i0 ≤ 15)) : pack k = .error .overflowError := by
  have u (word : Word64) (w lsb v : Nat) (hp : w + lsb ≤ 64) :
      setU word w lsb v = .error .overflowError ∨ (v < 2 ^ w ∧ ∃ x, setU word w lsb v = .ok x) := by
    by_cases hf : 0 < w ∧ v < 2 ^ w
    · exact .inr ⟨hf.2, _, setU_eq hp hf.1 hf.2⟩
    · exact .inl (setU_overflow hp hf)
  have s (word : Word64) (lsb : Nat) (v : Int) (hp : 5 + lsb ≤ 64) :
      setS word 5 lsb v = .error .overflowError ∨
        ((-16 ≤ v ∧ v ≤ 15) ∧ ∃ x, setS word 5 lsb v = .ok x) := by
    by_cases hf : 0 < 5 ∧ -2 ^ (5 - 1) ≤ v ∧ v ≤ 2 ^ (5 - 1) - 1
    · refine .inr ⟨?_, _, setS_eq hp hf.1 hf.2⟩
      have := hf.2
      norm_num at this
      omega
    · exact .inl (setS_overflow hp hf)
  rw [pack]
  rcases u 0#64 9 23 k.a (by decide) with e | ⟨ha, w1, e⟩ <;> rw [e] <;> simp only [Except.bind]
  rcases s w1 18 k.b (by decide) with e | ⟨hb, w2, e⟩ <;> rw [e]
  simp only
  rcases s w2 13 k.c (by decide) with e | ⟨hc, w3, e⟩ <;> rw [e]
  simp only
  rcases s w3 8 k.d (by decide) with e | ⟨hd, w4, e⟩ <;> rw [e]
  simp only
  rcases u w4 4 4 k.i1 (by decide) with e | ⟨h1, w5, e⟩ <;> rw [e]
  simp only
  rcases u w5 4 0 k.i0 (by decide) with e | ⟨h0, w6, e⟩
  · exact e
  · exact absurd ⟨by omega, hb, hc, hd, by omega, by omega⟩ h

/-- A register whose bits 63:32 are 0 is a codeword (R136, R137). -/
theorem isCodeword_iff {cw : Word64} : isCodeword cw = true ↔ cw.extractLsb' 32 32 = 0#32 := by
  simp [isCodeword]

end Sys2Proof.Machine
end

