-- ==== Sys2Proof/Laws/Decode.lean ====
section
/-! SUPPORT. The two word formats as sums of disjoint fields, and each field read back from a word. -/

namespace Sys2Proof

/-- The disjoint fields OPC, RD and RS, or-ed together, are their sum. -/
theorem or_opc_rd_rs (opc rd rs : Nat) (ho : opc < 2 ^ 6) (hd : rd < 2 ^ 5) :
    opc ||| rd <<< 6 ||| rs <<< 11 = opc + rd * 64 + rs * 2048 := by
  have h1 : opc ||| rd <<< 6 = rd * 64 + opc := by
    rw [Nat.lor_comm, Nat.shiftLeft_eq, Nat.mul_comm, ← Nat.two_pow_add_eq_or_of_lt ho]
  rw [h1, Nat.lor_comm, Nat.shiftLeft_eq, Nat.mul_comm,
    ← Nat.two_pow_add_eq_or_of_lt (by omega : rd * 64 + opc < 2 ^ 11)]
  omega

/-- Every opcode fits OPC, bits 5:0 (R84). -/
theorem opcode_lt (i : Instr) : i.opcode < 64 := by cases i <;> simp [Instr.opcode]

theorem encodeR_toNat (opc : Nat) (rd rs : Reg) (h : opc < 64) :
    (encodeR opc rd rs).toNat = opc + rd.val * 64 + rs.val * 2048 := by
  have := rd.isLt
  have := rs.isLt
  rw [encodeR, or_opc_rd_rs _ _ _ (by omega) (by omega), BitVec.toNat_ofNat]
  omega

theorem encodeB_toNat (opc : Nat) (rd rs : Reg) (width lsb : Imm7) (h : opc < 64) :
    (encodeB opc rd rs width lsb).toNat =
      opc + rd.val * 64 + rs.val * 2048 + width.val * 65536 + lsb.val * 8388608 := by
  have := rd.isLt
  have := rs.isLt
  have := width.isLt
  have := lsb.isLt
  have hw : opc + rd.val * 64 + rs.val * 2048 ||| width.val <<< 16 =
      opc + rd.val * 64 + rs.val * 2048 + width.val * 65536 := by
    rw [Nat.lor_comm, Nat.shiftLeft_eq, Nat.mul_comm, ← Nat.two_pow_add_eq_or_of_lt (by omega)]
    omega
  have hl : opc + rd.val * 64 + rs.val * 2048 + width.val * 65536 ||| lsb.val <<< 23 =
      opc + rd.val * 64 + rs.val * 2048 + width.val * 65536 + lsb.val * 8388608 := by
    rw [Nat.lor_comm, Nat.shiftLeft_eq, Nat.mul_comm, ← Nat.two_pow_add_eq_or_of_lt (by omega)]
    omega
  rw [encodeB, or_opc_rd_rs _ _ _ (by omega) (by omega), hw, hl, BitVec.toNat_ofNat]
  omega

/-- Every field of a format R word reads back, and its reserved bits are 0. -/
theorem fields_encodeR (opc : Nat) (rd rs : Reg) (h : opc < 64) :
    opcField (encodeR opc rd rs) = opc ∧ rdField (encodeR opc rd rs) = rd ∧
      rsField (encodeR opc rd rs) = rs ∧ wordField (encodeR opc rd rs) 16 16 = 0 := by
  have := rd.isLt
  have := rs.isLt
  simp only [opcField, rdField, rsField, regField, wordField, encodeR_toNat opc rd rs h]
  exact ⟨by omega, Fin.ext (by simp only; omega), Fin.ext (by simp only; omega), by omega⟩

/-- Every field of a format B word reads back, and its reserved bits are 0. -/
theorem fields_encodeB (opc : Nat) (rd rs : Reg) (width lsb : Imm7) (h : opc < 64) :
    opcField (encodeB opc rd rs width lsb) = opc ∧ rdField (encodeB opc rd rs width lsb) = rd ∧
      rsField (encodeB opc rd rs width lsb) = rs ∧
      widthField (encodeB opc rd rs width lsb) = width ∧
      lsbField (encodeB opc rd rs width lsb) = lsb ∧
      wordField (encodeB opc rd rs width lsb) 30 2 = 0 := by
  have := rd.isLt
  have := rs.isLt
  have := width.isLt
  have := lsb.isLt
  simp only [opcField, rdField, rsField, widthField, lsbField, immField, regField, wordField,
    encodeB_toNat opc rd rs width lsb h]
  exact ⟨by omega, Fin.ext (by simp only; omega), Fin.ext (by simp only; omega),
    Fin.ext (by simp only; omega), Fin.ext (by simp only; omega), by omega⟩

/-- A slice of a command word as a number. -/
theorem toNat_extractLsb'_word (w : Word32) (lo len : Nat) :
    (w.extractLsb' lo len).toNat = wordField w lo len := by
  simp [wordField, BitVec.extractLsb'_toNat, Nat.shiftRight_eq_div_pow]

end Sys2Proof
end

