-- ==== Sys2Proof/Laws/State.lean ====
section
/-! SUPPORT. One lemma per field of State and update, true by rfl, so that no later proof unfolds a
record update. -/

namespace Sys2Proof.Machine

namespace State

variable (s : State)

/-! ### Fields after `X[r] <- v` -/

@[simp] theorem writeX_x (r : Reg) (v : Word64) : (s.writeX r v).x = s.x.set r.val v r.isLt := rfl
@[simp] theorem writeX_f (r : Reg) (v : Word64) : (s.writeX r v).f = s.f := rfl
@[simp] theorem writeX_err (r : Reg) (v : Word64) : (s.writeX r v).err = s.err := rfl
@[simp] theorem writeX_denom (r : Reg) (v : Word64) : (s.writeX r v).denom = s.denom := rfl
@[simp] theorem writeX_outCount (r : Reg) (v : Word64) : (s.writeX r v).outCount = s.outCount := rfl
@[simp] theorem writeX_faultCmd (r : Reg) (v : Word64) : (s.writeX r v).faultCmd = s.faultCmd := rfl
@[simp] theorem writeX_inStream (r : Reg) (v : Word64) : (s.writeX r v).inStream = s.inStream := rfl
@[simp] theorem writeX_inClosed (r : Reg) (v : Word64) : (s.writeX r v).inClosed = s.inClosed := rfl
@[simp] theorem writeX_outStream (r : Reg) (v : Word64) :
    (s.writeX r v).outStream = s.outStream := rfl
@[simp] theorem writeX_held (r : Reg) (v : Word64) : (s.writeX r v).held = s.held := rfl
@[simp] theorem writeX_portWords (r : Reg) (v : Word64) :
    (s.writeX r v).portWords = s.portWords := rfl
@[simp] theorem writeX_config (r : Reg) (v : Word64) : (s.writeX r v).config = s.config := rfl
@[simp] theorem writeX_xWritten (r : Reg) (v : Word64) :
    (s.writeX r v).xWritten = s.xWritten.set r.val true r.isLt := rfl
@[simp] theorem writeX_fWritten (r : Reg) (v : Word64) : (s.writeX r v).fWritten = s.fWritten := rfl
@[simp] theorem writeX_hostOps (r : Reg) (v : Word64) : (s.writeX r v).hostOps = s.hostOps := rfl
@[simp] theorem writeX_answers (r : Reg) (v : Word64) : (s.writeX r v).answers = s.answers := rfl
@[simp] theorem writeX_faults (r : Reg) (v : Word64) : (s.writeX r v).faults = s.faults := rfl

/-! ### Fields after `F[r] <- b` -/

@[simp] theorem writeF_x (r : Reg) (b : Word32) : (s.writeF r b).x = s.x := rfl
@[simp] theorem writeF_f (r : Reg) (b : Word32) : (s.writeF r b).f = s.f.set r.val b r.isLt := rfl
@[simp] theorem writeF_err (r : Reg) (b : Word32) : (s.writeF r b).err = s.err := rfl
@[simp] theorem writeF_denom (r : Reg) (b : Word32) : (s.writeF r b).denom = s.denom := rfl
@[simp] theorem writeF_outCount (r : Reg) (b : Word32) : (s.writeF r b).outCount = s.outCount := rfl
@[simp] theorem writeF_faultCmd (r : Reg) (b : Word32) : (s.writeF r b).faultCmd = s.faultCmd := rfl
@[simp] theorem writeF_inStream (r : Reg) (b : Word32) : (s.writeF r b).inStream = s.inStream := rfl
@[simp] theorem writeF_inClosed (r : Reg) (b : Word32) : (s.writeF r b).inClosed = s.inClosed := rfl
@[simp] theorem writeF_outStream (r : Reg) (b : Word32) :
    (s.writeF r b).outStream = s.outStream := rfl
@[simp] theorem writeF_held (r : Reg) (b : Word32) : (s.writeF r b).held = s.held := rfl
@[simp] theorem writeF_portWords (r : Reg) (b : Word32) :
    (s.writeF r b).portWords = s.portWords := rfl
@[simp] theorem writeF_config (r : Reg) (b : Word32) : (s.writeF r b).config = s.config := rfl
@[simp] theorem writeF_xWritten (r : Reg) (b : Word32) : (s.writeF r b).xWritten = s.xWritten := rfl
@[simp] theorem writeF_fWritten (r : Reg) (b : Word32) :
    (s.writeF r b).fWritten = s.fWritten.set r.val true r.isLt := rfl
@[simp] theorem writeF_hostOps (r : Reg) (b : Word32) : (s.writeF r b).hostOps = s.hostOps := rfl
@[simp] theorem writeF_answers (r : Reg) (b : Word32) : (s.writeF r b).answers = s.answers := rfl
@[simp] theorem writeF_faults (r : Reg) (b : Word32) : (s.writeF r b).faults = s.faults := rfl

/-! ### Fields after the record of unwritten reads -/

@[simp] theorem noteReads_x (rs : List RegName) : (s.noteReads rs).x = s.x := rfl
@[simp] theorem noteReads_f (rs : List RegName) : (s.noteReads rs).f = s.f := rfl
@[simp] theorem noteReads_err (rs : List RegName) : (s.noteReads rs).err = s.err := rfl
@[simp] theorem noteReads_denom (rs : List RegName) : (s.noteReads rs).denom = s.denom := rfl
@[simp] theorem noteReads_outCount (rs : List RegName) :
    (s.noteReads rs).outCount = s.outCount := rfl
@[simp] theorem noteReads_faultCmd (rs : List RegName) :
    (s.noteReads rs).faultCmd = s.faultCmd := rfl
@[simp] theorem noteReads_inStream (rs : List RegName) :
    (s.noteReads rs).inStream = s.inStream := rfl
@[simp] theorem noteReads_inClosed (rs : List RegName) :
    (s.noteReads rs).inClosed = s.inClosed := rfl
@[simp] theorem noteReads_outStream (rs : List RegName) :
    (s.noteReads rs).outStream = s.outStream := rfl
@[simp] theorem noteReads_held (rs : List RegName) : (s.noteReads rs).held = s.held := rfl
@[simp] theorem noteReads_portWords (rs : List RegName) :
    (s.noteReads rs).portWords = s.portWords := rfl
@[simp] theorem noteReads_config (rs : List RegName) : (s.noteReads rs).config = s.config := rfl
@[simp] theorem noteReads_xWritten (rs : List RegName) :
    (s.noteReads rs).xWritten = s.xWritten := rfl
@[simp] theorem noteReads_fWritten (rs : List RegName) :
    (s.noteReads rs).fWritten = s.fWritten := rfl
@[simp] theorem noteReads_hostOps (rs : List RegName) : (s.noteReads rs).hostOps = s.hostOps := rfl
@[simp] theorem noteReads_answers (rs : List RegName) : (s.noteReads rs).answers = s.answers := rfl
@[simp] theorem noteReads_faults (rs : List RegName) :
    (s.noteReads rs).faults = s.faults ++ (rs.filter fun r => !s.written r).map .unwrittenRead := rfl

/-! ### Fields after an answer of the port -/

@[simp] theorem answer_x (a : Answer) : (s.answer a).x = s.x := rfl
@[simp] theorem answer_f (a : Answer) : (s.answer a).f = s.f := rfl
@[simp] theorem answer_err (a : Answer) : (s.answer a).err = s.err := rfl
@[simp] theorem answer_denom (a : Answer) : (s.answer a).denom = s.denom := rfl
@[simp] theorem answer_outCount (a : Answer) : (s.answer a).outCount = s.outCount := rfl
@[simp] theorem answer_faultCmd (a : Answer) : (s.answer a).faultCmd = s.faultCmd := rfl
@[simp] theorem answer_inStream (a : Answer) : (s.answer a).inStream = s.inStream := rfl
@[simp] theorem answer_inClosed (a : Answer) : (s.answer a).inClosed = s.inClosed := rfl
@[simp] theorem answer_outStream (a : Answer) : (s.answer a).outStream = s.outStream := rfl
@[simp] theorem answer_held (a : Answer) : (s.answer a).held = s.held := rfl
@[simp] theorem answer_portWords (a : Answer) : (s.answer a).portWords = s.portWords := rfl
@[simp] theorem answer_config (a : Answer) : (s.answer a).config = s.config := rfl
@[simp] theorem answer_xWritten (a : Answer) : (s.answer a).xWritten = s.xWritten := rfl
@[simp] theorem answer_fWritten (a : Answer) : (s.answer a).fWritten = s.fWritten := rfl
@[simp] theorem answer_hostOps (a : Answer) : (s.answer a).hostOps = s.hostOps := rfl
@[simp] theorem answer_answers (a : Answer) : (s.answer a).answers = s.answers ++ [a] := rfl
@[simp] theorem answer_faults (a : Answer) : (s.answer a).faults = s.faults := rfl

/-! ### Fields after `OutPush` -/

@[simp] theorem outPush_x (b0 b1 b2 b3 : Byte) : (s.outPush b0 b1 b2 b3).x = s.x := rfl
@[simp] theorem outPush_f (b0 b1 b2 b3 : Byte) : (s.outPush b0 b1 b2 b3).f = s.f := rfl
@[simp] theorem outPush_err (b0 b1 b2 b3 : Byte) : (s.outPush b0 b1 b2 b3).err = s.err := rfl
@[simp] theorem outPush_denom (b0 b1 b2 b3 : Byte) : (s.outPush b0 b1 b2 b3).denom = s.denom := rfl
@[simp] theorem outPush_outCount (b0 b1 b2 b3 : Byte) :
    (s.outPush b0 b1 b2 b3).outCount = s.outCount + 4 := rfl
@[simp] theorem outPush_faultCmd (b0 b1 b2 b3 : Byte) :
    (s.outPush b0 b1 b2 b3).faultCmd = s.faultCmd := rfl
@[simp] theorem outPush_inStream (b0 b1 b2 b3 : Byte) :
    (s.outPush b0 b1 b2 b3).inStream = s.inStream := rfl
@[simp] theorem outPush_inClosed (b0 b1 b2 b3 : Byte) :
    (s.outPush b0 b1 b2 b3).inClosed = s.inClosed := rfl
@[simp] theorem outPush_outStream (b0 b1 b2 b3 : Byte) :
    (s.outPush b0 b1 b2 b3).outStream = s.outStream ++ [b0, b1, b2, b3] := rfl
@[simp] theorem outPush_held (b0 b1 b2 b3 : Byte) : (s.outPush b0 b1 b2 b3).held = s.held := rfl
@[simp] theorem outPush_portWords (b0 b1 b2 b3 : Byte) :
    (s.outPush b0 b1 b2 b3).portWords = s.portWords := rfl
@[simp] theorem outPush_config (b0 b1 b2 b3 : Byte) :
    (s.outPush b0 b1 b2 b3).config = s.config := rfl
@[simp] theorem outPush_xWritten (b0 b1 b2 b3 : Byte) :
    (s.outPush b0 b1 b2 b3).xWritten = s.xWritten := rfl
@[simp] theorem outPush_fWritten (b0 b1 b2 b3 : Byte) :
    (s.outPush b0 b1 b2 b3).fWritten = s.fWritten := rfl
@[simp] theorem outPush_hostOps (b0 b1 b2 b3 : Byte) :
    (s.outPush b0 b1 b2 b3).hostOps = s.hostOps := rfl
@[simp] theorem outPush_answers (b0 b1 b2 b3 : Byte) :
    (s.outPush b0 b1 b2 b3).answers = s.answers := rfl
@[simp] theorem outPush_faults (b0 b1 b2 b3 : Byte) :
    (s.outPush b0 b1 b2 b3).faults = s.faults := rfl

/-! ### Fields after error entry -/

@[simp] theorem errorEntry_x (k : ErrKind) (w : Word32) : (s.errorEntry k w).x = s.x := rfl
@[simp] theorem errorEntry_f (k : ErrKind) (w : Word32) : (s.errorEntry k w).f = s.f := rfl
@[simp] theorem errorEntry_err (k : ErrKind) (w : Word32) : (s.errorEntry k w).err = some k := rfl
@[simp] theorem errorEntry_denom (k : ErrKind) (w : Word32) :
    (s.errorEntry k w).denom = s.denom := rfl
@[simp] theorem errorEntry_outCount (k : ErrKind) (w : Word32) :
    (s.errorEntry k w).outCount = s.outCount := rfl
@[simp] theorem errorEntry_faultCmd (k : ErrKind) (w : Word32) :
    (s.errorEntry k w).faultCmd = w := rfl
@[simp] theorem errorEntry_inStream (k : ErrKind) (w : Word32) :
    (s.errorEntry k w).inStream = s.inStream := rfl
@[simp] theorem errorEntry_inClosed (k : ErrKind) (w : Word32) :
    (s.errorEntry k w).inClosed = s.inClosed := rfl
@[simp] theorem errorEntry_outStream (k : ErrKind) (w : Word32) :
    (s.errorEntry k w).outStream = s.outStream := rfl
@[simp] theorem errorEntry_held (k : ErrKind) (w : Word32) : (s.errorEntry k w).held = none := rfl
@[simp] theorem errorEntry_portWords (k : ErrKind) (w : Word32) :
    (s.errorEntry k w).portWords = s.portWords := rfl
@[simp] theorem errorEntry_config (k : ErrKind) (w : Word32) :
    (s.errorEntry k w).config = s.config := rfl
@[simp] theorem errorEntry_xWritten (k : ErrKind) (w : Word32) :
    (s.errorEntry k w).xWritten = s.xWritten := rfl
@[simp] theorem errorEntry_fWritten (k : ErrKind) (w : Word32) :
    (s.errorEntry k w).fWritten = s.fWritten := rfl
@[simp] theorem errorEntry_hostOps (k : ErrKind) (w : Word32) :
    (s.errorEntry k w).hostOps = s.hostOps := rfl
@[simp] theorem errorEntry_answers (k : ErrKind) (w : Word32) :
    (s.errorEntry k w).answers = s.answers ++ [.error k] := rfl
@[simp] theorem errorEntry_faults (k : ErrKind) (w : Word32) :
    (s.errorEntry k w).faults = s.faults := rfl

/-! ### Fields after `H.RESET` -/

@[simp] theorem hostReset_x : s.hostReset.x = Vector.replicate 32 0#64 := rfl
@[simp] theorem hostReset_f : s.hostReset.f = Vector.replicate 32 0#32 := rfl
@[simp] theorem hostReset_err : s.hostReset.err = none := rfl
@[simp] theorem hostReset_denom : s.hostReset.denom = 0#64 := rfl
@[simp] theorem hostReset_outCount : s.hostReset.outCount = 0#64 := rfl
@[simp] theorem hostReset_faultCmd : s.hostReset.faultCmd = 0#32 := rfl
@[simp] theorem hostReset_inStream : s.hostReset.inStream = [] := rfl
@[simp] theorem hostReset_inClosed : s.hostReset.inClosed = false := rfl
@[simp] theorem hostReset_outStream : s.hostReset.outStream = [] := rfl
@[simp] theorem hostReset_held : s.hostReset.held = none := rfl
@[simp] theorem hostReset_portWords : s.hostReset.portWords = [] := rfl
@[simp] theorem hostReset_config : s.hostReset.config = s.config := rfl
@[simp] theorem hostReset_xWritten : s.hostReset.xWritten = Vector.replicate 32 false := rfl
@[simp] theorem hostReset_fWritten : s.hostReset.fWritten = Vector.replicate 32 false := rfl
@[simp] theorem hostReset_hostOps : s.hostReset.hostOps = s.hostOps := rfl
@[simp] theorem hostReset_answers : s.hostReset.answers = s.answers := rfl
@[simp] theorem hostReset_faults : s.hostReset.faults = s.faults := rfl

/-! ### Register reads and derived views after each update -/

@[simp] theorem readF_writeX (r : Reg) (v : Word64) (q : Reg) : (s.writeX r v).readF q = s.readF q := rfl
@[simp] theorem inCount_writeX (r : Reg) (v : Word64) : (s.writeX r v).inCount = s.inCount := rfl
@[simp] theorem status_writeX (r : Reg) (v : Word64) : (s.writeX r v).status = s.status := rfl
@[simp] theorem runState_writeX (r : Reg) (v : Word64) : (s.writeX r v).runState = s.runState := rfl
@[simp] theorem readX_writeF (r : Reg) (b : Word32) (q : Reg) : (s.writeF r b).readX q = s.readX q := rfl
@[simp] theorem inCount_writeF (r : Reg) (b : Word32) : (s.writeF r b).inCount = s.inCount := rfl
@[simp] theorem status_writeF (r : Reg) (b : Word32) : (s.writeF r b).status = s.status := rfl
@[simp] theorem runState_writeF (r : Reg) (b : Word32) : (s.writeF r b).runState = s.runState := rfl
@[simp] theorem readX_noteReads (rs : List RegName) (q : Reg) : (s.noteReads rs).readX q = s.readX q := rfl
@[simp] theorem readF_noteReads (rs : List RegName) (q : Reg) : (s.noteReads rs).readF q = s.readF q := rfl
@[simp] theorem inCount_noteReads (rs : List RegName) : (s.noteReads rs).inCount = s.inCount := rfl
@[simp] theorem status_noteReads (rs : List RegName) : (s.noteReads rs).status = s.status := rfl
@[simp] theorem runState_noteReads (rs : List RegName) : (s.noteReads rs).runState = s.runState := rfl
@[simp] theorem written_noteReads (rs : List RegName) (q : RegName) : (s.noteReads rs).written q = s.written q := by
  cases q <;> rfl
@[simp] theorem readX_answer (a : Answer) (q : Reg) : (s.answer a).readX q = s.readX q := rfl
@[simp] theorem readF_answer (a : Answer) (q : Reg) : (s.answer a).readF q = s.readF q := rfl
@[simp] theorem inCount_answer (a : Answer) : (s.answer a).inCount = s.inCount := rfl
@[simp] theorem status_answer (a : Answer) : (s.answer a).status = s.status := rfl
@[simp] theorem runState_answer (a : Answer) : (s.answer a).runState = s.runState := rfl
@[simp] theorem written_answer (a : Answer) (q : RegName) : (s.answer a).written q = s.written q := by
  cases q <;> rfl
@[simp] theorem readX_outPush (b0 b1 b2 b3 : Byte) (q : Reg) : (s.outPush b0 b1 b2 b3).readX q = s.readX q := rfl
@[simp] theorem readF_outPush (b0 b1 b2 b3 : Byte) (q : Reg) : (s.outPush b0 b1 b2 b3).readF q = s.readF q := rfl
@[simp] theorem inCount_outPush (b0 b1 b2 b3 : Byte) : (s.outPush b0 b1 b2 b3).inCount = s.inCount := rfl
@[simp] theorem status_outPush (b0 b1 b2 b3 : Byte) : (s.outPush b0 b1 b2 b3).status = s.status := rfl
@[simp] theorem runState_outPush (b0 b1 b2 b3 : Byte) : (s.outPush b0 b1 b2 b3).runState = s.runState := rfl
@[simp] theorem written_outPush (b0 b1 b2 b3 : Byte) (q : RegName) : (s.outPush b0 b1 b2 b3).written q = s.written q := by
  cases q <;> rfl
@[simp] theorem readX_errorEntry (k : ErrKind) (w : Word32) (q : Reg) : (s.errorEntry k w).readX q = s.readX q := rfl
@[simp] theorem readF_errorEntry (k : ErrKind) (w : Word32) (q : Reg) : (s.errorEntry k w).readF q = s.readF q := rfl
@[simp] theorem inCount_errorEntry (k : ErrKind) (w : Word32) : (s.errorEntry k w).inCount = s.inCount := rfl
@[simp] theorem runState_errorEntry (k : ErrKind) (w : Word32) : (s.errorEntry k w).runState = .aborted := rfl
@[simp] theorem written_errorEntry (k : ErrKind) (w : Word32) (q : RegName) : (s.errorEntry k w).written q = s.written q := by
  cases q <;> rfl
@[simp] theorem runState_hostReset : s.hostReset.runState = .idle := rfl
@[simp] theorem status_hostReset : s.hostReset.status = 0#64 := rfl

/-- `H.RESET` makes every X register read as the value notes/assumptions/1.md names. -/
@[simp] theorem readX_hostReset (q : Reg) : s.hostReset.readX q = 0#64 := by
  simp [readX]

/-- `H.RESET` makes every F register read as the value notes/assumptions/1.md names. -/
@[simp] theorem readF_hostReset (q : Reg) : s.hostReset.readF q = 0#32 := by
  simp [readF]

end State

end Sys2Proof.Machine
end

