-- ==== Sys2Proof/Laws/Ops.lean ====
section
/-! SUPPORT. One lemma per shared operation: register reads after writes, register groups, the run of a
command, and error entry. -/

namespace Sys2Proof.Machine

namespace State

variable (s : State)

/-! ### Read after write -/

theorem readX_writeX (r q : Reg) (v : Word64) :
    (s.writeX r v).readX q = if q = r then v else s.readX q := by
  simp only [readX, writeX_x, Fin.getElem_fin, Vector.getElem_set]
  by_cases h : q = r
  · simp [h]
  · have : r.val ≠ q.val := fun e => h (Fin.ext e.symm)
    simp [h, this]

theorem readF_writeF (r q : Reg) (b : Word32) :
    (s.writeF r b).readF q = if q = r then b else s.readF q := by
  simp only [readF, writeF_f, Fin.getElem_fin, Vector.getElem_set]
  by_cases h : q = r
  · simp [h]
  · have : r.val ≠ q.val := fun e => h (Fin.ext e.symm)
    simp [h, this]

@[simp] theorem readX_writeX_same (r : Reg) (v : Word64) : (s.writeX r v).readX r = v := by
  simp [readX_writeX]

@[simp] theorem readF_writeF_same (r : Reg) (b : Word32) : (s.writeF r b).readF r = b := by
  simp [readF_writeF]

theorem readX_writeX_other {r q : Reg} (v : Word64) (h : q ≠ r) :
    (s.writeX r v).readX q = s.readX q := by
  simp [readX_writeX, h]

theorem readF_writeF_other {r q : Reg} (b : Word32) (h : q ≠ r) :
    (s.writeF r b).readF q = s.readF q := by
  simp [readF_writeF, h]

/-- A write of an X register marks that register written, and no other. -/
theorem written_writeX (r : Reg) (v : Word64) (q : RegName) :
    (s.writeX r v).written q = (decide (q = .x r) || s.written q) := by
  cases q with
  | f q => simp [written]
  | x q =>
    simp only [written, writeX_xWritten, Fin.getElem_fin, Vector.getElem_set]
    by_cases h : q = r
    · simp [h]
    · have : r.val ≠ q.val := fun e => h (Fin.ext e.symm)
      simp [h, this]

/-- A write of an F register marks that register written, and no other. -/
theorem written_writeF (r : Reg) (b : Word32) (q : RegName) :
    (s.writeF r b).written q = (decide (q = .f r) || s.written q) := by
  cases q with
  | x q => simp [written]
  | f q =>
    simp only [written, writeF_fWritten, Fin.getElem_fin, Vector.getElem_set]
    by_cases h : q = r
    · simp [h]
    · have : r.val ≠ q.val := fun e => h (Fin.ext e.symm)
      simp [h, this]

end State

/-! ### Register groups (R16) -/

@[simp] theorem groupReg_zero (base : Reg) : groupReg base 0 = base :=
  Fin.ext (by simp [groupReg, Nat.mod_eq_of_lt base.isLt])

theorem groupReg_val {base : Reg} {k : Nat} (h : base.val + k < 32) :
    (groupReg base k).val = base.val + k := Nat.mod_eq_of_lt h

theorem groupReg_groupReg (base : Reg) (j k : Nat) :
    groupReg (groupReg base j) k = groupReg base (j + k) :=
  Fin.ext (by simp [groupReg, Nat.add_assoc])

/-- What a write of a list to a group changes and keeps, beside the X registers: only they and their
written marks change. -/
theorem writeXs_frame (base : Reg) (vs : List Word64) (s : State) :
    s.writeXs base vs =
      { s with x := (s.writeXs base vs).x, xWritten := (s.writeXs base vs).xWritten } := by
  induction vs generalizing base s with
  | nil => rfl
  | cons v vs ih => exact ih (groupReg base 1) (s.writeX base v)

/-- What a write of a list to a group changes and keeps, beside the F registers: only they and their
written marks change. -/
theorem writeFs_frame (base : Reg) (bs : List Word32) (s : State) :
    s.writeFs base bs =
      { s with f := (s.writeFs base bs).f, fWritten := (s.writeFs base bs).fWritten } := by
  induction bs generalizing base s with
  | nil => rfl
  | cons b bs ih => exact ih (groupReg base 1) (s.writeF base b)

/-- Reading an X register after a group that fits was written: member k holds value k, and a register
outside the group is unchanged. -/
theorem readX_writeXs (base : Reg) (vs : List Word64) (s : State) (q : Reg)
    (h : base.val + vs.length ≤ 32) :
    (s.writeXs base vs).readX q =
      if base.val ≤ q.val then (vs[q.val - base.val]?).getD (s.readX q) else s.readX q := by
  induction vs generalizing base s with
  | nil => simp [State.writeXs]
  | cons v vs ih =>
    rw [State.writeXs]
    have hlen : base.val + (vs.length + 1) ≤ 32 := by simpa using h
    by_cases hb : base.val + 1 = 32
    · have : vs = [] := List.eq_nil_of_length_eq_zero (by omega)
      subst this
      rw [State.writeXs, State.readX_writeX]
      by_cases e : q = base
      · simp [e]
      · have : ¬base.val ≤ q.val := fun hle => e (Fin.ext (by omega))
        simp [e, this]
    · have hv : (groupReg base 1).val = base.val + 1 := groupReg_val (by omega)
      rw [ih (groupReg base 1) (s.writeX base v) (by omega), State.readX_writeX, hv]
      by_cases e : q = base
      · subst e; simp
      · by_cases hle : base.val ≤ q.val
        · have h1 : base.val + 1 ≤ q.val := by
            have : base.val ≠ q.val := fun x => e (Fin.ext x.symm)
            omega
          obtain ⟨j, hj⟩ : ∃ j, q.val - base.val = j + 1 := ⟨q.val - base.val - 1, by omega⟩
          have hj' : q.val - (base.val + 1) = j := by omega
          simp [e, hle, h1, hj, hj']
        · have : ¬base.val + 1 ≤ q.val := by omega
          simp [e, hle, this]

/-- Reading an F register after a group that fits was written: member k holds value k, and a register
outside the group is unchanged. -/
theorem readF_writeFs (base : Reg) (bs : List Word32) (s : State) (q : Reg)
    (h : base.val + bs.length ≤ 32) :
    (s.writeFs base bs).readF q =
      if base.val ≤ q.val then (bs[q.val - base.val]?).getD (s.readF q) else s.readF q := by
  induction bs generalizing base s with
  | nil => simp [State.writeFs]
  | cons b bs ih =>
    rw [State.writeFs]
    have hlen : base.val + (bs.length + 1) ≤ 32 := by simpa using h
    by_cases hb : base.val + 1 = 32
    · have : bs = [] := List.eq_nil_of_length_eq_zero (by omega)
      subst this
      rw [State.writeFs, State.readF_writeF]
      by_cases e : q = base
      · simp [e]
      · have : ¬base.val ≤ q.val := fun hle => e (Fin.ext (by omega))
        simp [e, this]
    · have hv : (groupReg base 1).val = base.val + 1 := groupReg_val (by omega)
      rw [ih (groupReg base 1) (s.writeF base b) (by omega), State.readF_writeF, hv]
      by_cases e : q = base
      · subst e; simp
      · by_cases hle : base.val ≤ q.val
        · have h1 : base.val + 1 ≤ q.val := by
            have : base.val ≠ q.val := fun x => e (Fin.ext x.symm)
            omega
          obtain ⟨j, hj⟩ : ∃ j, q.val - base.val = j + 1 := ⟨q.val - base.val - 1, by omega⟩
          have hj' : q.val - (base.val + 1) = j := by omega
          simp [e, hle, h1, hj, hj']
        · have : ¬base.val + 1 ≤ q.val := by omega
          simp [e, hle, this]

/-- Member `k` of a written X group that fits. -/
theorem readX_writeXs_member {base : Reg} {vs : List Word64} (s : State) {k : Nat}
    (h : base.val + vs.length ≤ 32) (hk : k < vs.length) :
    (s.writeXs base vs).readX (groupReg base k) = vs[k] := by
  have hv : (groupReg base k).val = base.val + k := groupReg_val (by omega)
  rw [readX_writeXs base vs s _ h, hv]
  simp [hk]

/-- Member `k` of a written F group that fits. -/
theorem readF_writeFs_member {base : Reg} {bs : List Word32} (s : State) {k : Nat}
    (h : base.val + bs.length ≤ 32) (hk : k < bs.length) :
    (s.writeFs base bs).readF (groupReg base k) = bs[k] := by
  have hv : (groupReg base k).val = base.val + k := groupReg_val (by omega)
  rw [readF_writeFs base bs s _ h, hv]
  simp [hk]

/-- An X register outside a written group that fits. -/
theorem readX_writeXs_outside {base : Reg} {vs : List Word64} (s : State) {q : Reg}
    (h : base.val + vs.length ≤ 32) (hq : ¬inGroup base vs.length q) :
    (s.writeXs base vs).readX q = s.readX q := by
  rw [readX_writeXs base vs s q h]
  split
  · have : vs[q.val - base.val]? = none := by
      simp only [List.getElem?_eq_none_iff]
      simp only [inGroup] at hq
      omega
    simp [this]
  · rfl

/-- An F register outside a written group that fits. -/
theorem readF_writeFs_outside {base : Reg} {bs : List Word32} (s : State) {q : Reg}
    (h : base.val + bs.length ≤ 32) (hq : ¬inGroup base bs.length q) :
    (s.writeFs base bs).readF q = s.readF q := by
  rw [readF_writeFs base bs s q h]
  split
  · have : bs[q.val - base.val]? = none := by
      simp only [List.getElem?_eq_none_iff]
      simp only [inGroup] at hq
      omega
    simp [this]
  · rfl

/-! ### The run of one command and error entry -/

/-- Everything the run of a command can do: an ill-formed command enters IllegalCommand, a failed check
enters its error, and otherwise the port answers DONE. -/
theorem runCommand_cases {i : Instr} {reads : List RegName} {body : State → Except ErrKind State}
    {s : State} {o : Result} (h : runCommand i reads body s = o) :
    (i.wf = false ∧ o = .next (s.errorEntry .illegalCommand (encode i))) ∨
    (∃ k, i.wf = true ∧ body (s.noteReads reads) = .error k ∧
      o = .next ((s.noteReads reads).errorEntry k (encode i))) ∨
    (∃ t, i.wf = true ∧ body (s.noteReads reads) = .ok t ∧ o = .next (t.answer .done)) := by
  unfold runCommand at h
  cases hw : i.wf with
  | false => exact .inl ⟨rfl, by simpa [hw] using h.symm⟩
  | true =>
    cases hb : body (s.noteReads reads) with
    | error k => exact .inr (.inl ⟨k, rfl, rfl, by simpa [hw, hb] using h.symm⟩)
    | ok t => exact .inr (.inr ⟨t, rfl, rfl, by simpa [hw, hb] using h.symm⟩)

/-- A well-formed command whose checks pass completes. -/
theorem runCommand_done {i : Instr} {reads : List RegName} {body : State → Except ErrKind State}
    {s t : State} (hw : i.wf = true) (hb : body (s.noteReads reads) = .ok t) :
    runCommand i reads body s = .next (t.answer .done) := by
  simp [runCommand, hw, hb]

/-- A well-formed command with a failed check enters its error. -/
theorem runCommand_error {i : Instr} {reads : List RegName} {body : State → Except ErrKind State}
    {s : State} {k : ErrKind} (hw : i.wf = true) (hb : body (s.noteReads reads) = .error k) :
    runCommand i reads body s = .next ((s.noteReads reads).errorEntry k (encode i)) := by
  simp [runCommand, hw, hb]

/-- An ill-formed command enters IllegalCommand before it reads an operand (R91). -/
theorem runCommand_illegal {i : Instr} {reads : List RegName} {body : State → Except ErrKind State}
    {s : State} (hw : i.wf = false) :
    runCommand i reads body s = .next (s.errorEntry .illegalCommand (encode i)) := by
  simp [runCommand, hw]

/-- Error entry does what R203 lists and nothing else. -/
theorem errorEntry_entered (s : State) (k : ErrKind) (word : Word32) :
    ErrorEntered s (s.errorEntry k word) k word where
  err := rfl
  faultCmd := rfl
  waiting := rfl
  runState := rfl
  answered := rfl
  x := fun _ => rfl
  f := fun _ => rfl
  denom := rfl
  streams := ⟨rfl, rfl, rfl, rfl, rfl⟩
  portWords := rfl
  config := rfl
  hostOps := rfl

/-- Error entry after the sources were read: the record of unwritten reads is no part of R203. -/
theorem noteReads_errorEntry_entered (s : State) (rs : List RegName) (k : ErrKind) (word : Word32) :
    ErrorEntered s ((s.noteReads rs).errorEntry k word) k word where
  err := rfl
  faultCmd := rfl
  waiting := rfl
  runState := rfl
  answered := rfl
  x := fun _ => rfl
  f := fun _ => rfl
  denom := rfl
  streams := ⟨rfl, rfl, rfl, rfl, rfl⟩
  portWords := rfl
  config := rfl
  hostOps := rfl

/-! ### The frames of the register commands -/

/-- A command that writes one X register. -/
theorem registersOnly_writeX (s : State) (rs : List RegName) (r : Reg) (v : Word64) :
    RegistersOnly s (((s.noteReads rs).writeX r v).answer .done) (· = r) noReg where
  done := rfl
  x := fun _ hq => State.readX_writeX_other (s.noteReads rs) v hq
  f := fun _ _ => rfl
  denom := rfl
  streams := ⟨rfl, rfl, rfl, rfl, rfl⟩
  control := ⟨rfl, rfl, rfl, rfl, rfl, rfl, rfl⟩

/-- A command that writes one F register. -/
theorem registersOnly_writeF (s : State) (rs : List RegName) (r : Reg) (b : Word32) :
    RegistersOnly s (((s.noteReads rs).writeF r b).answer .done) noReg (· = r) where
  done := rfl
  x := fun _ _ => rfl
  f := fun _ hq => State.readF_writeF_other (s.noteReads rs) b hq
  denom := rfl
  streams := ⟨rfl, rfl, rfl, rfl, rfl⟩
  control := ⟨rfl, rfl, rfl, rfl, rfl, rfl, rfl⟩

/-- A command that writes a group of X registers. -/
theorem registersOnly_writeXs (s : State) (rs : List RegName) (base : Reg) (vs : List Word64)
    (h : base.val + vs.length ≤ 32) :
    RegistersOnly s (((s.noteReads rs).writeXs base vs).answer .done) (inGroup base vs.length)
      noReg := by
  have hx : KeepsX s (((s.noteReads rs).writeXs base vs).answer .done) (inGroup base vs.length) :=
    fun q hq => readX_writeXs_outside (s.noteReads rs) h hq
  rw [writeXs_frame] at hx ⊢
  exact ⟨rfl, hx, fun _ _ => rfl, rfl, ⟨rfl, rfl, rfl, rfl, rfl⟩, ⟨rfl, rfl, rfl, rfl, rfl, rfl, rfl⟩⟩

/-- A command that writes a group of F registers. -/
theorem registersOnly_writeFs (s : State) (rs : List RegName) (base : Reg) (bs : List Word32)
    (h : base.val + bs.length ≤ 32) :
    RegistersOnly s (((s.noteReads rs).writeFs base bs).answer .done) noReg
      (inGroup base bs.length) := by
  have hf : KeepsF s (((s.noteReads rs).writeFs base bs).answer .done) (inGroup base bs.length) :=
    fun q hq => readF_writeFs_outside (s.noteReads rs) h hq
  rw [writeFs_frame] at hf ⊢
  exact ⟨rfl, fun _ _ => rfl, hf, rfl, ⟨rfl, rfl, rfl, rfl, rfl⟩, ⟨rfl, rfl, rfl, rfl, rfl, rfl, rfl⟩⟩

end Sys2Proof.Machine
end

