-- ==== Sys2Proof/Laws/Exec.lean ====
section
/-! SUPPORT. `exec` as a whole: each command's arm as the run of a command, and once for all commands
everything that `exec` can answer. -/

namespace Sys2Proof.Machine

/-! ### The arms -/

section Arms

variable (s : State)

theorem exec_bfFitsU (xd xs : Reg) (w : Imm7) : exec (.bfFitsU xd xs w) s =
    runCommand (.bfFitsU xd xs w) [.x xs]
      (fun t => (fitsU (uint (t.readX xs)) w.val).map fun b => t.writeX xd (predicateWord b)) s := rfl

theorem exec_bfFitsS (xd xs : Reg) (w : Imm7) : exec (.bfFitsS xd xs w) s =
    runCommand (.bfFitsS xd xs w) [.x xs]
      (fun t => (fitsS (sint (t.readX xs)) w.val).map fun b => t.writeX xd (predicateWord b)) s := rfl

theorem exec_bfGetU (xd xs : Reg) (w lsb : Imm7) : exec (.bfGetU xd xs w lsb) s =
    runCommand (.bfGetU xd xs w lsb) [.x xs]
      (fun t => (getU (t.readX xs) w.val lsb.val).map fun u => t.writeX xd (zext64 u)) s := rfl

theorem exec_bfGetS (xd xs : Reg) (w lsb : Imm7) : exec (.bfGetS xd xs w lsb) s =
    runCommand (.bfGetS xd xs w lsb) [.x xs]
      (fun t => (getS (t.readX xs) w.val lsb.val).map fun n => t.writeX xd (u64 n)) s := rfl

theorem exec_bfSetU (xd xs : Reg) (w lsb : Imm7) : exec (.bfSetU xd xs w lsb) s =
    runCommand (.bfSetU xd xs w lsb) [.x xd, .x xs]
      (fun t => (setU (t.readX xd) w.val lsb.val (uint (t.readX xs))).map fun v => t.writeX xd v) s :=
  rfl

theorem exec_bfSetS (xd xs : Reg) (w lsb : Imm7) : exec (.bfSetS xd xs w lsb) s =
    runCommand (.bfSetS xd xs w lsb) [.x xd, .x xs]
      (fun t => (setS (t.readX xd) w.val lsb.val (sint (t.readX xs))).map fun v => t.writeX xd v) s :=
  rfl

theorem exec_cwPack (xd xs : Reg) : exec (.cwPack xd xs) s =
    runCommand (.cwPack xd xs) (xGroup xs 6)
      (fun t => (pack (readBlock t xs)).map fun cw => t.writeX xd cw) s := rfl

theorem exec_cwUnpack (xd xs : Reg) : exec (.cwUnpack xd xs) s =
    runCommand (.cwUnpack xd xs) [.x xs]
      (fun t => if isCodeword (t.readX xs) then
        (unpack (t.readX xs)).map fun k => t.writeXs xd (blockWords k)
        else .error .preconditionViolation) s := rfl

theorem exec_cwEmit (xs : Reg) : exec (.cwEmit xs) s =
    runCommand (.cwEmit xs) [.x xs]
      (fun t => if isCodeword (t.readX xs) then
        .ok (t.outPush (codewordByte (t.readX xs) 3) (codewordByte (t.readX xs) 2)
          (codewordByte (t.readX xs) 1) (codewordByte (t.readX xs) 0))
        else .error .preconditionViolation) s := rfl

theorem exec_cwFetch (xd : Reg) : exec (.cwFetch xd) s = execCwFetch xd s := rfl

theorem exec_qFA (xd fs : Reg) : exec (.qFA xd fs) s =
    runCommand (.qFA xd fs) [.f fs]
      (fun t => (quantizeA (t.readF fs)).map fun q => t.writeX xd (zext64 q)) s := rfl

theorem exec_qFBCD (xd fs : Reg) : exec (.qFBCD xd fs) s =
    runCommand (.qFBCD xd fs) [.f fs]
      (fun t => (quantizeBCD (t.readF fs)).map fun q => t.writeX xd (u64 q)) s := rfl

theorem exec_qIA (fd xs : Reg) : exec (.qIA fd xs) s =
    runCommand (.qIA fd xs) [.x xs]
      (fun t => (dequantizeA (uint (t.readX xs))).map fun b => t.writeF fd b) s := rfl

theorem exec_qIBCD (fd xs : Reg) : exec (.qIBCD fd xs) s =
    runCommand (.qIBCD fd xs) [.x xs]
      (fun t => (dequantizeBCD (sint (t.readX xs))).map fun b => t.writeF fd b) s := rfl

theorem exec_qCIdx (xd fs : Reg) : exec (.qCIdx xd fs) s =
    runCommand (.qCIdx xd fs) [.f fs]
      (fun t => (chromaIndex t.config.chromaTable (t.readF fs)).map
        fun i => t.writeX xd (zext64 i)) s := rfl

theorem exec_qCVal (fd xs : Reg) : exec (.qCVal fd xs) s =
    runCommand (.qCVal fd xs) [.x xs]
      (fun t => (chromaValue t.config.chromaTable (uint (t.readX xs))).map
        fun b => t.writeF fd b) s := rfl

theorem exec_dctFwd (fd fs : Reg) : exec (.dctFwd fd fs) s =
    runCommand (.dctFwd fd fs) (fGroup fs 12)
      (fun t => if groupFinite t fs 12 then
        let v := fun k => val32 (groupF t fs k)
        let k := forwardLuma ⟨v 0, v 3, v 6, v 9⟩
        .ok (t.writeFs fd [rnd32 k.a, rnd32 k.b, rnd32 k.c, rnd32 k.d,
          rnd32 (chromaMean (v 1) (v 4) (v 7) (v 10)), rnd32 (chromaMean (v 2) (v 5) (v 8) (v 11))])
        else .error .preconditionViolation) s := rfl

theorem exec_dctInv (fd fs : Reg) : exec (.dctInv fd fs) s =
    runCommand (.dctInv fd fs) (fGroup fs 6)
      (fun t => if groupFinite t fs 6 then
        let v := fun k => val32 (groupF t fs k)
        let q := inverseLuma ⟨v 0, v 1, v 2, v 3⟩
        let pB := groupF t fs 4
        let pR := groupF t fs 5
        .ok (t.writeFs fd
          [rnd32 q.y1, pB, pR, rnd32 q.y2, pB, pR, rnd32 q.y3, pB, pR, rnd32 q.y4, pB, pR])
        else .error .preconditionViolation) s := rfl

theorem exec_ccFwd (fd xs : Reg) : exec (.ccFwd fd xs) s =
    runCommand (.ccFwd fd xs) (xGroup xs 3)
      (fun t =>
        let D := uint t.denom
        let r := uint (t.readX xs)
        let g := uint (t.readX (groupReg xs 1))
        let b := uint (t.readX (groupReg xs 2))
        if D = 0 then .error .preconditionViolation
        else if D < r ∨ D < g ∨ D < b then .error .preconditionViolation
        else
          let p := toComponent ⟨(r : ℚ) / D, (g : ℚ) / D, (b : ℚ) / D⟩
          if p.y < 0 ∨ 1 < p.y then .error .preconditionViolation
          else .ok (t.writeFs fd [rnd32 p.y, rnd32 p.pB, rnd32 p.pR])) s := rfl

theorem exec_ccInv (xd fs : Reg) : exec (.ccInv xd fs) s =
    runCommand (.ccInv xd fs) (fGroup fs 3)
      (fun t =>
        let D := uint t.denom
        let sy := t.readF fs
        let sb := t.readF (groupReg fs 1)
        let sr := t.readF (groupReg fs 2)
        if D = 0 then .error .preconditionViolation
        else if !(isFinite sy && isFinite sb && isFinite sr) then .error .preconditionViolation
        else
          let c := toRgb ⟨val32 sy, val32 sb, val32 sr⟩
          .ok (t.writeXs xd
            [zext64 (channelValue c.r D), zext64 (channelValue c.g D),
              zext64 (channelValue c.b D)])) s := rfl

theorem exec_crRd (xd crn : Reg) : exec (.crRd xd crn) s =
    runCommand (.crRd xd crn) []
      (fun t => match CReg.ofNumber crn.val with
        | some c => .ok (t.writeX xd (t.readCR c))
        | none => .error .illegalCommand) s := rfl

theorem exec_crWr (crn xs : Reg) : exec (.crWr crn xs) s =
    runCommand (.crWr crn xs) [.x xs] (fun t => .ok { t with denom := t.readX xs }) s := rfl

end Arms

/-! ### Everything exec can answer -/

/-- What every completed command keeps, and what the few commands beyond the registers do. -/
structure Completed (i : Instr) (s t : State) : Prop where
  answers : t.answers = s.answers ++ [.done]
  err : t.err = s.err
  faultCmd : t.faultCmd = s.faultCmd
  config : t.config = s.config
  inClosed : t.inClosed = s.inClosed
  portWords : t.portWords = s.portWords
  hostOps : t.hostOps = s.hostOps
  denom : t.denom = s.denom ∨ ∃ xs, i = .crWr 1 xs ∧ t.denom = s.readX xs
  input : (t.inStream = s.inStream ∧ t.held = s.held) ∨
    ∃ xd b0 b1 b2 b3, i = .cwFetch xd ∧ s.inStream = b0 :: b1 :: b2 :: b3 :: t.inStream ∧
      t.held = none
  output : (t.outStream = s.outStream ∧ t.outCount = s.outCount) ∨
    ∃ xs b0 b1 b2 b3, i = .cwEmit xs ∧ t.outStream = s.outStream ++ [b0, b1, b2, b3] ∧
      t.outCount = s.outCount + 4

/-- A command that keeps to the registers has everything else as it was. -/
theorem completed_of_registersOnly {i : Instr} {s t : State} {xDest fDest : Reg → Prop}
    (h : RegistersOnly s t xDest fDest) : Completed i s t :=
  ⟨h.done, h.control.err, h.control.faultCmd, h.control.config, h.streams.inClosed,
    h.control.portWords, h.control.hostOps, .inl h.denom,
    .inl ⟨h.streams.inStream, h.control.held⟩, .inl ⟨h.streams.outStream, h.streams.outCount⟩⟩

theorem except_map_ok {α β ε : Type} {e : Except ε α} {f : α → β} {b : β} (h : e.map f = .ok b) :
    ∃ a, e = .ok a ∧ b = f a := by
  cases e with
  | error k => cases h
  | ok a => exact ⟨a, rfl, (Except.ok.inj h).symm⟩

/-- The commands whose body writes registers alone. -/
theorem runCommand_completed {i : Instr} {reads : List RegName}
    {body : State → Except ErrKind State} {s : State}
    (hb : ∀ t, i.wf = true → body (s.noteReads reads) = .ok t → Completed i s (t.answer .done)) :
    (∃ rs k, runCommand i reads body s = .next ((s.noteReads rs).errorEntry k (encode i))) ∨
      ∃ t, runCommand i reads body s = .next t ∧ Completed i s t := by
  rcases runCommand_cases (o := runCommand i reads body s) rfl with ⟨_, h⟩ | ⟨k, _, _, h⟩ | ⟨t, hw, ht, h⟩
  · exact .inl ⟨[], .illegalCommand, by rw [h]; simp [State.noteReads]⟩
  · exact .inl ⟨reads, k, h⟩
  · exact .inr ⟨_, h, hb t hw ht⟩

/-- Everything CW.FETCH, or its re-evaluation, can do. -/
theorem execCwFetch_cases (xd : Reg) (s : State) :
    (∃ b0 b1 b2 b3 rest cw, s.inStream = b0 :: b1 :: b2 :: b3 :: rest ∧
      deserialize b0 b1 b2 b3 = .ok cw ∧ execCwFetch xd s =
        .next (({ s with inStream := rest, held := none }.writeX xd cw).answer .done)) ∨
    (∃ k, execCwFetch xd s = .next (s.errorEntry k (encode (.cwFetch xd)))) ∨
    (s.inStream.length < 4 ∧ s.inClosed = false ∧
      execCwFetch xd s = .next { s with held := some xd }) := by
  unfold execCwFetch
  split
  · rename_i b0 b1 b2 b3 rest hs
    cases hd : deserialize b0 b1 b2 b3 with
    | ok cw => exact .inl ⟨b0, b1, b2, b3, rest, cw, hs, hd, rfl⟩
    | error k => exact .inr (.inl ⟨k, rfl⟩)
  · rename_i hs
    cases hc : s.inClosed with
    | true => exact .inr (.inl ⟨_, rfl⟩)
    | false =>
      refine .inr (.inr ⟨?_, rfl, rfl⟩)
      match hl : s.inStream with
      | [] => simp
      | [_] => simp
      | [_, _] => simp
      | [_, _, _] => simp
      | b0 :: b1 :: b2 :: b3 :: rest => exact absurd hl (hs b0 b1 b2 b3 rest)

/-- Everything that `exec` can answer: an error's entry, a completed command, or a held fetch. -/
theorem exec_cases (i : Instr) (s : State) :
    (∃ rs k, exec i s = .next ((s.noteReads rs).errorEntry k (encode i))) ∨
    (∃ t, exec i s = .next t ∧ Completed i s t) ∨
    (∃ xd, i = .cwFetch xd ∧ s.inStream.length < 4 ∧ s.inClosed = false ∧
      exec i s = .next { s with held := some xd }) := by
  have hX : ∀ (rs : List RegName) (r : Reg) (v : Word64),
      Completed i s (((s.noteReads rs).writeX r v).answer .done) := fun rs r v =>
    completed_of_registersOnly (registersOnly_writeX s rs r v)
  have hF : ∀ (rs : List RegName) (r : Reg) (v : Word32),
      Completed i s (((s.noteReads rs).writeF r v).answer .done) := fun rs r v =>
    completed_of_registersOnly (registersOnly_writeF s rs r v)
  have hXs : ∀ (rs : List RegName) (r : Reg) (vs : List Word64), r.val + vs.length ≤ 32 →
      Completed i s (((s.noteReads rs).writeXs r vs).answer .done) := fun rs r vs h =>
    completed_of_registersOnly (registersOnly_writeXs s rs r vs h)
  have hFs : ∀ (rs : List RegName) (r : Reg) (vs : List Word32), r.val + vs.length ≤ 32 →
      Completed i s (((s.noteReads rs).writeFs r vs).answer .done) := fun rs r vs h =>
    completed_of_registersOnly (registersOnly_writeFs s rs r vs h)
  suffices h : (∀ xd, i ≠ .cwFetch xd) →
      (∃ rs k, exec i s = .next ((s.noteReads rs).errorEntry k (encode i))) ∨
        ∃ t, exec i s = .next t ∧ Completed i s t by
    by_cases hi : ∃ xd, i = .cwFetch xd
    · obtain ⟨xd, rfl⟩ := hi
      rw [exec_cwFetch]
      rcases execCwFetch_cases xd s with ⟨b0, b1, b2, b3, rest, cw, hs, _, ht⟩ | ⟨k, ht⟩ | ⟨hl, hc, ht⟩
      · exact .inr (.inl ⟨_, ht, rfl, rfl, rfl, rfl, rfl, rfl, rfl, .inl rfl,
          .inr ⟨xd, b0, b1, b2, b3, rfl, hs, rfl⟩, .inl ⟨rfl, rfl⟩⟩)
      · exact .inl ⟨[], k, by rw [ht]; simp [State.noteReads]⟩
      · exact .inr (.inr ⟨xd, rfl, hl, hc, ht⟩)
    · exact (h fun xd hx => hi ⟨xd, hx⟩).imp_right .inl
  intro hne
  cases i with
  | cwFetch xd => exact absurd rfl (hne xd)
  | bfFitsU | bfFitsS | bfGetU | bfGetS | bfSetU | bfSetS | cwPack | qFA | qFBCD | qCIdx =>
    simp only [exec_bfFitsU, exec_bfFitsS, exec_bfGetU, exec_bfGetS, exec_bfSetU, exec_bfSetS,
      exec_cwPack, exec_qFA, exec_qFBCD, exec_qCIdx]
    refine runCommand_completed fun t _ ht => ?_
    obtain ⟨a, _, rfl⟩ := except_map_ok ht
    exact hX _ _ _
  | qIA | qIBCD | qCVal =>
    simp only [exec_qIA, exec_qIBCD, exec_qCVal]
    refine runCommand_completed fun t _ ht => ?_
    obtain ⟨a, _, rfl⟩ := except_map_ok ht
    exact hF _ _ _
  | cwUnpack xd xs =>
    rw [exec_cwUnpack]
    refine runCommand_completed fun t hw ht => ?_
    split at ht
    · obtain ⟨a, _, rfl⟩ := except_map_ok ht
      exact hXs _ _ _ (by simpa [Instr.wf, groupFits, blockWords] using hw)
    · cases ht
  | cwEmit xs =>
    rw [exec_cwEmit]
    refine runCommand_completed fun t _ ht => ?_
    split at ht
    · cases ht
      exact ⟨rfl, rfl, rfl, rfl, rfl, rfl, rfl, .inl rfl, .inl ⟨rfl, rfl⟩,
        .inr ⟨xs, _, _, _, _, rfl, rfl, rfl⟩⟩
    · cases ht
  | dctFwd fd fs =>
    rw [exec_dctFwd]
    refine runCommand_completed fun t hw ht => ?_
    simp only at ht
    split at ht
    · cases ht
      exact hFs _ _ _ (by simp [Instr.wf, groupFits] at hw; simpa using hw.1)
    · cases ht
  | dctInv fd fs =>
    rw [exec_dctInv]
    refine runCommand_completed fun t hw ht => ?_
    simp only at ht
    split at ht
    · cases ht
      exact hFs _ _ _ (by simp [Instr.wf, groupFits] at hw; simpa using hw.1)
    · cases ht
  | ccFwd fd xs =>
    rw [exec_ccFwd]
    refine runCommand_completed fun t hw ht => ?_
    simp only at ht
    split at ht
    · cases ht
    split at ht
    · cases ht
    split at ht
    · cases ht
    · cases ht
      exact hFs _ _ _ (by simp [Instr.wf, groupFits] at hw; simpa using hw.1)
  | ccInv xd fs =>
    rw [exec_ccInv]
    refine runCommand_completed fun t hw ht => ?_
    simp only at ht
    split at ht
    · cases ht
    split at ht
    · cases ht
    · cases ht
      exact hXs _ _ _ (by simp [Instr.wf, groupFits] at hw; simpa using hw.1)
  | crRd xd crn =>
    rw [exec_crRd]
    refine runCommand_completed fun t _ ht => ?_
    split at ht
    · cases ht
      exact hX _ _ _
    · cases ht
  | crWr crn xs =>
    rw [exec_crWr]
    refine runCommand_completed fun t hw ht => ?_
    cases ht
    have : crn = 1 := by
      have : crn.val = 1 := by simpa [Instr.wf] using hw
      exact Fin.ext this
    subst this
    exact ⟨rfl, rfl, rfl, rfl, rfl, rfl, rfl, .inr ⟨xs, rfl, rfl⟩, .inl ⟨rfl, rfl⟩,
      .inl ⟨rfl, rfl⟩⟩

end Sys2Proof.Machine
end

