-- ==== Sys2Proof/Laws/PerInstr.lean ====
section
/-! SUPPORT. Statements made once per command, over the command as syntax: its word carries its opcode of
R84 in bits 5:0. -/

namespace Sys2Proof.Laws.OpcodeOfWord

/-- The word of the command holds the command's opcode in bits 5:0 (R81, R82, R84). -/
def Statement (i : Instr) : Prop := opcField (encode i) = i.opcode

theorem bfFitsU (xd xs : Reg) (w : Imm7) : Statement (.bfFitsU xd xs w) :=
  (fields_encodeB _ xd xs w 0 (opcode_lt _)).1

theorem bfFitsS (xd xs : Reg) (w : Imm7) : Statement (.bfFitsS xd xs w) :=
  (fields_encodeB _ xd xs w 0 (opcode_lt _)).1

theorem bfGetU (xd xs : Reg) (w lsb : Imm7) : Statement (.bfGetU xd xs w lsb) :=
  (fields_encodeB _ xd xs w lsb (opcode_lt _)).1

theorem bfGetS (xd xs : Reg) (w lsb : Imm7) : Statement (.bfGetS xd xs w lsb) :=
  (fields_encodeB _ xd xs w lsb (opcode_lt _)).1

theorem bfSetU (xd xs : Reg) (w lsb : Imm7) : Statement (.bfSetU xd xs w lsb) :=
  (fields_encodeB _ xd xs w lsb (opcode_lt _)).1

theorem bfSetS (xd xs : Reg) (w lsb : Imm7) : Statement (.bfSetS xd xs w lsb) :=
  (fields_encodeB _ xd xs w lsb (opcode_lt _)).1

theorem cwPack (rd rs : Reg) : Statement (.cwPack rd rs) :=
  (fields_encodeR _ rd rs (opcode_lt _)).1

theorem cwUnpack (rd rs : Reg) : Statement (.cwUnpack rd rs) :=
  (fields_encodeR _ rd rs (opcode_lt _)).1

theorem cwEmit (xs : Reg) : Statement (.cwEmit xs) :=
  (fields_encodeR _ 0 xs (opcode_lt _)).1

theorem cwFetch (xd : Reg) : Statement (.cwFetch xd) :=
  (fields_encodeR _ xd 0 (opcode_lt _)).1

theorem qFA (rd rs : Reg) : Statement (.qFA rd rs) :=
  (fields_encodeR _ rd rs (opcode_lt _)).1

theorem qFBCD (rd rs : Reg) : Statement (.qFBCD rd rs) :=
  (fields_encodeR _ rd rs (opcode_lt _)).1

theorem qIA (rd rs : Reg) : Statement (.qIA rd rs) :=
  (fields_encodeR _ rd rs (opcode_lt _)).1

theorem qIBCD (rd rs : Reg) : Statement (.qIBCD rd rs) :=
  (fields_encodeR _ rd rs (opcode_lt _)).1

theorem qCIdx (rd rs : Reg) : Statement (.qCIdx rd rs) :=
  (fields_encodeR _ rd rs (opcode_lt _)).1

theorem qCVal (rd rs : Reg) : Statement (.qCVal rd rs) :=
  (fields_encodeR _ rd rs (opcode_lt _)).1

theorem dctFwd (rd rs : Reg) : Statement (.dctFwd rd rs) :=
  (fields_encodeR _ rd rs (opcode_lt _)).1

theorem dctInv (rd rs : Reg) : Statement (.dctInv rd rs) :=
  (fields_encodeR _ rd rs (opcode_lt _)).1

theorem ccFwd (rd rs : Reg) : Statement (.ccFwd rd rs) :=
  (fields_encodeR _ rd rs (opcode_lt _)).1

theorem ccInv (rd rs : Reg) : Statement (.ccInv rd rs) :=
  (fields_encodeR _ rd rs (opcode_lt _)).1

theorem crRd (rd rs : Reg) : Statement (.crRd rd rs) :=
  (fields_encodeR _ rd rs (opcode_lt _)).1

theorem crWr (rd rs : Reg) : Statement (.crWr rd rs) :=
  (fields_encodeR _ rd rs (opcode_lt _)).1

end Sys2Proof.Laws.OpcodeOfWord
end

