-- ==== Sys2Proof/Laws/Real.lean ====
section
/-! SUPPORT. One lemma per real-number primitive of R14, in terms of Mathlib's powers and floors. -/

namespace Sys2Proof.Machine

theorem pow2_eq (e : Int) : pow2 e = (2 : ℚ) ^ e := by
  unfold pow2
  split
  · rename_i h
    obtain ⟨n, rfl⟩ := Int.eq_ofNat_of_zero_le h
    simp
  · rename_i h
    obtain ⟨n, rfl⟩ : ∃ n : Nat, e = -(n : Int) := ⟨(-e).toNat, by omega⟩
    simp

theorem pow2_pos (e : Int) : 0 < pow2 e := by
  rw [pow2_eq]
  positivity

theorem pow2_add (a b : Int) : pow2 (a + b) = pow2 a * pow2 b := by
  simp only [pow2_eq]
  exact zpow_add₀ (by norm_num) a b

theorem pow2_lt {a b : Int} (h : a < b) : pow2 a < pow2 b := by
  simp only [pow2_eq]
  exact zpow_lt_zpow_right₀ (by norm_num) h

theorem pow2_le {a b : Int} (h : a ≤ b) : pow2 a ≤ pow2 b := by
  simp only [pow2_eq]
  exact zpow_le_zpow_right₀ (by norm_num) h

theorem pow2_natCast (n : Nat) : pow2 (n : Int) = ((2 ^ n : Nat) : ℚ) := by
  simp [pow2_eq]

/-- `floorLog2` is the exponent of R14: the power of two at or below its argument. -/
theorem floorLog2_spec {a : ℚ} (h : 0 < a) :
    pow2 (floorLog2 a) ≤ a ∧ a < pow2 (floorLog2 a + 1) := by
  have hn : a.num.natAbs ≠ 0 := by
    have := Rat.num_pos.2 h
    omega
  have hd : a.den ≠ 0 := a.den_ne_zero
  set p := Nat.log2 a.num.natAbs with hp
  set r := Nat.log2 a.den with hr
  have hn1 : 2 ^ p ≤ a.num.natAbs := Nat.log2_self_le hn
  have hn2 : a.num.natAbs < 2 ^ (p + 1) := Nat.lt_log2_self
  have hd1 : 2 ^ r ≤ a.den := Nat.log2_self_le hd
  have hd2 : a.den < 2 ^ (r + 1) := Nat.lt_log2_self
  have hnum : a * a.den = (a.num.natAbs : ℚ) := by
    rw [Rat.mul_den_eq_num]
    have : (a.num.natAbs : Int) = a.num := Int.natAbs_of_nonneg (Rat.num_pos.2 h).le
    rw [← Int.cast_natCast, this]
  have hdpos : (0 : ℚ) < a.den := by exact_mod_cast Nat.pos_of_ne_zero hd
  have hn1' : (2 : ℚ) ^ p ≤ a * a.den := by rw [hnum]; exact_mod_cast hn1
  have hn2' : a * a.den < (2 : ℚ) ^ (p + 1) := by rw [hnum]; exact_mod_cast hn2
  have hd1' : (2 : ℚ) ^ r ≤ a.den := by exact_mod_cast hd1
  have hd2' : (a.den : ℚ) < 2 ^ (r + 1) := by exact_mod_cast hd2
  have hpr : pow2 ((p : Int) - r) = 2 ^ p / 2 ^ r := by
    rw [pow2_eq, zpow_sub₀ (by norm_num), zpow_natCast, zpow_natCast]
  have hup : a < pow2 ((p : Int) - r + 1) := by
    rw [pow2_add, hpr, pow2_eq, zpow_one, div_mul_eq_mul_div, lt_div_iff₀ (by positivity), ← pow_succ]
    exact lt_of_le_of_lt (mul_le_mul_of_nonneg_left hd1' h.le) hn2'
  have hlo : pow2 ((p : Int) - r - 1) ≤ a := by
    have e : pow2 ((p : Int) - r - 1) * 2 ^ (r + 1) = 2 ^ p := by
      rw [sub_eq_add_neg _ (1 : Int), pow2_add, hpr, pow2_eq (-1)]
      field_simp
      ring
    have : pow2 ((p : Int) - r - 1) * 2 ^ (r + 1) ≤ a * 2 ^ (r + 1) := by
      rw [e]
      exact hn1'.trans (mul_le_mul_of_nonneg_left hd2'.le h.le)
    exact le_of_mul_le_mul_right this (by positivity)
  unfold floorLog2
  simp only [← hp, ← hr]
  split
  · exact ⟨by assumption, hup⟩
  · refine ⟨hlo, ?_⟩
    rw [sub_add_cancel]
    exact lt_of_not_ge (by assumption)

/-- `roundHalfEven` is within a half, and even when it is exactly a half away. -/
theorem roundHalfEven_spec (q : ℚ) :
    |q - roundHalfEven q| ≤ 1 / 2 ∧
      (|q - roundHalfEven q| = 1 / 2 → roundHalfEven q % 2 = 0) := by
  have h0 : (⌊q⌋ : ℚ) ≤ q := Int.floor_le q
  have h1 : q < ⌊q⌋ + 1 := Int.lt_floor_add_one q
  unfold roundHalfEven
  simp only
  split_ifs with c1 c2 c3
  · rw [abs_of_nonneg (by linarith)]
    exact ⟨by linarith, fun h => absurd h (by linarith)⟩
  · push_cast
    rw [abs_of_nonpos (by linarith)]
    exact ⟨by linarith, fun h => absurd h (by linarith)⟩
  · rw [abs_of_nonneg (by linarith)]
    exact ⟨by linarith, fun _ => c3⟩
  · push_cast
    rw [abs_of_nonpos (by linarith)]
    exact ⟨by linarith, fun _ => by omega⟩

/-- `roundHalfEven` of an integer is the integer. -/
theorem roundHalfEven_intCast (n : Int) : roundHalfEven (n : ℚ) = n := by
  simp [roundHalfEven]

/-- No integer is nearer than `roundHalfEven`. -/
theorem roundHalfEven_nearest (q : ℚ) (m : Int) : |q - roundHalfEven q| ≤ |q - m| := by
  by_cases h : m = roundHalfEven q
  · rw [h]
  · have hh := (roundHalfEven_spec q).1
    have h1 : (1 : ℚ) ≤ |(roundHalfEven q : ℚ) - m| := by
      have : (1 : Int) ≤ |roundHalfEven q - m| := Int.one_le_abs (sub_ne_zero.2 (Ne.symm h))
      exact_mod_cast this
    have h2 : |(roundHalfEven q : ℚ) - m| ≤ |q - roundHalfEven q| + |q - m| := by
      rw [show (roundHalfEven q : ℚ) - m = -(q - roundHalfEven q) + (q - m) by ring]
      exact (abs_add_le _ _).trans (by rw [abs_neg])
    linarith

/-- `trunc` is the floor of a value that is not negative. -/
theorem trunc_of_nonneg {q : ℚ} (h : 0 ≤ q) : trunc q = ⌊q⌋ := by
  simp [trunc, not_lt.2 h]

/-- `trunc` is the ceiling of a value that is not positive. -/
theorem trunc_of_nonpos {q : ℚ} (h : q ≤ 0) : trunc q = ⌈q⌉ := by
  unfold trunc
  split
  · simp [Int.ceil, Int.floor_neg]
  · have : q = 0 := by linarith
    simp [this]

/-- `rhaz` of a value that is not negative: the nearest integer, a tie going up. -/
theorem rhaz_of_nonneg {q : ℚ} (h : 0 ≤ q) :
    0 ≤ rhaz q ∧ (rhaz q : ℚ) - 1 / 2 ≤ q ∧ q < (rhaz q : ℚ) + 1 / 2 := by
  have e : rhaz q = ⌊q + 1 / 2⌋ := by simp [rhaz, not_lt.2 h]
  rw [e]
  have h0 := Int.floor_le (q + 1 / 2)
  have h1 := Int.lt_floor_add_one (q + 1 / 2)
  exact ⟨Int.floor_nonneg.2 (by linarith), by linarith, by linarith⟩

theorem clamp01_mem (q : ℚ) : 0 ≤ clamp01 q ∧ clamp01 q ≤ 1 :=
  ⟨le_min (le_max_right q 0) zero_le_one, min_le_right _ _⟩

/-! ### Patterns and their values -/

/-- The pattern with the three fields given (R14). -/
theorem fields_ofNat (negative : Bool) {E M : Nat} (hE : E < 256) (hM : M < 2 ^ 23) :
    let b := BitVec.ofNat 32 ((if negative then 2 ^ 31 else 0) + E * 2 ^ 23 + M)
    f32Sign b = negative ∧ f32Exp b = E ∧ f32Frac b = M := by
  have ht : (BitVec.ofNat 32 ((if negative then 2 ^ 31 else 0) + E * 2 ^ 23 + M)).toNat =
      (if negative then 2 ^ 31 else 0) + E * 2 ^ 23 + M := by
    rw [BitVec.toNat_ofNat]
    cases negative <;> simp <;> omega
  refine ⟨?_, ?_, ?_⟩
  · simp only [f32Sign, BitVec.getLsbD, ht, Nat.testBit_eq_decide_div_mod_eq]
    cases negative <;> simp <;> omega
  · simp only [f32Exp, ht]
    cases negative <;> simp <;> omega
  · simp only [f32Frac, ht]
    cases negative <;> simp <;> omega

/-- The significand of a finite pattern as an integer, in units of `2^(e-23)` (R14). -/
def significand (b : Word32) : Nat := if f32Exp b = 0 then f32Frac b else 2 ^ 23 + f32Frac b

/-- The exponent of a finite pattern: -126 for zeros and subnormals (R14). -/
def exponent (b : Word32) : Int := if f32Exp b = 0 then -126 else (f32Exp b : Int) - 127

/-! ### The fields as slices -/

theorem extractLsb'_exponent (b : Word32) : (b.extractLsb' 23 8).toNat = f32Exp b := by
  simp [f32Exp, Nat.shiftRight_eq_div_pow]

theorem extractLsb'_fraction (b : Word32) : (b.extractLsb' 0 23).toNat = f32Frac b := by
  simp [f32Frac]

theorem extractLsb'_sign (b : Word32) : (b.extractLsb' 31 1).toNat = (f32Sign b).toNat := by
  rw [BitVec.extractLsb'_toNat, Nat.shiftRight_eq_div_pow, f32Sign, BitVec.getLsbD,
    Nat.testBit_eq_decide_div_mod_eq]
  rcases Nat.mod_two_eq_zero_or_one (b.toNat / 2 ^ 31) with h | h <;> rw [h] <;> rfl

theorem val32_eq (b : Word32) :
    val32 b = (if f32Sign b then -1 else 1) * (significand b * pow2 (exponent b - 23)) := by
  have h23 : pow2 23 = 2 ^ 23 := by rw [pow2_eq]; norm_cast
  have hm : (if f32Exp b = 0 then pow2 (-126) * ((f32Frac b : ℚ) / pow2 23)
      else pow2 ((f32Exp b : Int) - 127) * (1 + (f32Frac b : ℚ) / pow2 23)) =
      significand b * pow2 (exponent b - 23) := by
    unfold significand exponent
    split
    · rw [show (-126 - 23 : Int) = -126 + -23 by ring, pow2_add, pow2_eq (-23), h23]
      rw [zpow_neg]
      norm_num
      ring
    · rw [sub_eq_add_neg _ (23 : Int), pow2_add, pow2_eq (-23), h23]
      push_cast
      rw [zpow_neg]
      norm_num
      ring
  simp only [val32, hm]
  split <;> simp

theorem significand_lt (b : Word32) : significand b < 2 ^ 24 := by
  have : f32Frac b < 2 ^ 23 := Nat.mod_lt _ (by decide)
  unfold significand
  split <;> omega

theorem exponent_ge (b : Word32) : -126 ≤ exponent b := by
  unfold exponent
  split <;> omega

theorem exponent_le {b : Word32} (h : isFinite b = true) : exponent b ≤ 127 := by
  have h1 : f32Exp b < 256 := Nat.mod_lt _ (by decide)
  have h2 : f32Exp b ≠ 255 := by simpa [isFinite] using h
  unfold exponent
  split <;> omega

/-- A small significand stands only at the least exponent. -/
theorem exponent_eq_of_significand_lt {b : Word32} (h : significand b < 2 ^ 23) :
    exponent b = -126 := by
  unfold significand at h
  unfold exponent
  split at h <;> simp_all

/-- A pattern is its three fields. -/
theorem eq_of_fields (b : Word32) :
    b = BitVec.ofNat 32 ((if f32Sign b then 2 ^ 31 else 0) + f32Exp b * 2 ^ 23 + f32Frac b) := by
  apply BitVec.eq_of_toNat_eq
  have hb := b.isLt
  rw [BitVec.toNat_ofNat]
  simp only [f32Sign, f32Exp, f32Frac, BitVec.getLsbD, Nat.testBit_eq_decide_div_mod_eq]
  split <;> rename_i hs <;> simp only [decide_eq_true_eq] at hs <;> omega

/-- `finitePattern` is the pattern of the value it is asked for (R14). -/
theorem finitePattern_spec (negative : Bool) {e : Int} {n : Nat} (he : -126 ≤ e) (hn : n ≤ 2 ^ 24)
    (hs : n < 2 ^ 23 → e = -126) (hm : e ≤ 127) (ho : n = 2 ^ 24 → e < 127) :
    isFinite (finitePattern negative e n) = true ∧
      val32 (finitePattern negative e n) =
        (if negative then -1 else 1) * (n * pow2 (e - 23)) := by
  unfold finitePattern
  by_cases h1 : n < 2 ^ 23
  · obtain ⟨fs, fe, ff⟩ := fields_ofNat negative (E := 0) (M := n) (by decide) h1
    simp only [zero_mul, add_zero] at fs fe ff
    simp only [h1, if_true]
    refine ⟨by simp only [isFinite, fe]; decide, ?_⟩
    rw [val32_eq, fs, significand, exponent, fe, ff, hs h1]
    simp
  · by_cases h2 : n < 2 ^ 24
    · obtain ⟨fs, fe, ff⟩ := fields_ofNat negative (E := (e + 127).toNat) (M := n - 2 ^ 23)
        (by omega) (by omega)
      simp only [h1, h2, if_true, if_false]
      have hE : (e + 127).toNat ≠ 0 := by omega
      have hE' : ((e + 127).toNat : Int) - 127 = e := by omega
      have hN : 2 ^ 23 + (n - 2 ^ 23) = n := by omega
      refine ⟨by simp only [isFinite, fe, bne_iff_ne]; omega, ?_⟩
      rw [val32_eq, fs, significand, exponent, fe, ff]
      simp only [hE, if_false, hE', hN]
    · have h3 : n = 2 ^ 24 := by omega
      have := ho h3
      obtain ⟨fs, fe, ff⟩ := fields_ofNat negative (E := (e + 128).toNat) (M := 0)
        (by omega) (by decide)
      simp only [add_zero] at fs fe ff
      simp only [h1, h2, if_false]
      have hE : (e + 128).toNat ≠ 0 := by omega
      have hE' : ((e + 128).toNat : Int) - 127 = e + 1 := by omega
      refine ⟨by simp only [isFinite, fe, bne_iff_ne]; omega, ?_⟩
      rw [val32_eq, fs, significand, exponent, fe, ff]
      simp only [hE, if_false, hE', h3]
      rw [show e + 1 - 23 = 1 + (e - 23) by ring, pow2_add, pow2_eq 1]
      push_cast
      norm_num
      split <;> ring

end Sys2Proof.Machine
end

