-- ==== Sys2Proof/Tests/Slice0.lean ====
section
/-! SUPPORT. The model's own tests. Every expected value is one of spec/95_test_vectors.md, named by its
id there. Then the witnesses: concrete states and operands that meet the hypotheses of each statement of
Certificates/Slice0/Obligations.lean, a witness for each clause, at the boundaries. -/

open Sys2Proof Sys2Proof.Machine Sys2Proof.Claims

namespace Sys2Proof.Tests

/-! ### Helpers -/

/-- The state a result goes on with. -/
def nextOf : Result → Option State
  | .next t => some t
  | _ => none

/-- The word, presented to the unit in `s`, runs, and `check` holds of the state after it. -/
def runs (s : State) (word : Nat) (check : State → Bool) : Bool :=
  ((nextOf (step (s.withFetchWord 32 word))).map check).getD false

/-- The command answered DONE alone. -/
def done (t : State) : Bool := t.answers == [.done]

/-- The command answered the error `k` alone, FAULTCMD is `word`, and STATUS is `status`. -/
def failed (k : ErrKind) (word : Nat) (status : Word64) (t : State) : Bool :=
  t.answers == [.error k] && t.faultCmd == BitVec.ofNat 32 word && t.status == status

/-- The word W of 95_test_vectors.md. -/
def W : Word64 := 0x0123456789ABCDEF#64

/-- X1 and X2 hold the two values. -/
def x12 (a b : Word64) : State := State.reset.writeXs 1 [a, b]

/-- F1 holds the pattern. -/
def f1 (b : Word32) : State := State.reset.writeF 1 b

/-- The group of X registers read back. -/
def xs (t : State) (base : Reg) (n : Nat) : List Nat :=
  (List.range n).map fun k => (t.readX (groupReg base k)).toNat

/-- The group of F registers read back. -/
def fs (t : State) (base : Reg) (n : Nat) : List Word32 :=
  (List.range n).map fun k => t.readF (groupReg base k)

/-- A state whose IN stream holds the bytes. -/
def streamed (bytes : List Byte) (closed : Bool) : State :=
  { State.reset with inStream := bytes, inClosed := closed }

/-- A unit that waits for a fourth byte for `CW.FETCH x3` (C-S-5). -/
def waiting : State := { streamed [0x01#8, 0x02#8, 0x03#8] false with held := some 3 }

/-- A unit that an overflow aborted (B-C-7), with a byte in IN. -/
def aborted : State :=
  { streamed [0x09#8] false with err := some .overflowError, faultCmd := 0x1E041045#32 }

/-- DENOM set. -/
def scaled (s : State) (d : Word64) : State := { s with denom := d }

/-- The quad of D-F-1 in FG(4,12). -/
def quad : State := State.reset.writeFs 4
  [0x3E800000#32, 0xBF000000#32, 0x3F000000#32, 0x3F000000#32, 0x00000000#32, 0x3E800000#32,
    0x3F400000#32, 0x3E800000#32, 0xBE800000#32, 0x3F800000#32, 0x3E000000#32, 0x00000000#32]

/-- The block of C-P-1 in XG(10,6). -/
def block : State := State.reset.writeXs 10 [300, BitVec.ofInt 64 (-15), 7, 0, 9, 4]

/-! ### WellFormed refuses one ill-formed term for each check -/

theorem test_wf_cwPack_group : (Instr.cwPack 1 27).wf = false := by decide
theorem test_wf_cwUnpack_group : (Instr.cwUnpack 27 1).wf = false := by decide
theorem test_wf_dctFwd_destination : (Instr.dctFwd 27 0).wf = false := by decide
theorem test_wf_dctFwd_source : (Instr.dctFwd 0 21).wf = false := by decide
theorem test_wf_dctInv_destination : (Instr.dctInv 21 0).wf = false := by decide
theorem test_wf_dctInv_source : (Instr.dctInv 0 27).wf = false := by decide
theorem test_wf_ccFwd_destination : (Instr.ccFwd 30 0).wf = false := by decide
theorem test_wf_ccFwd_source : (Instr.ccFwd 0 30).wf = false := by decide
theorem test_wf_ccInv_destination : (Instr.ccInv 30 0).wf = false := by decide
theorem test_wf_ccInv_source : (Instr.ccInv 0 30).wf = false := by decide
theorem test_wf_crRd_number : (Instr.crRd 1 5).wf = false := by decide
theorem test_wf_crWr_number : (Instr.crWr 0 1).wf = false ∧ (Instr.crWr 2 1).wf = false := by decide

/-- The largest legal groups and control register numbers are well-formed (E-11, E-18, E-26). -/
theorem test_wf_boundaries :
    (Instr.cwPack 1 26).wf ∧ (Instr.cwUnpack 26 1).wf ∧ (Instr.dctFwd 26 20).wf ∧
      (Instr.dctInv 20 26).wf ∧ (Instr.ccFwd 29 29).wf ∧ (Instr.ccInv 29 29).wf ∧
      (Instr.crRd 31 4).wf ∧ (Instr.crWr 1 31).wf := by decide

/-! ### Decoding: words written out in the spec (E, B-C, C, Q, D, K, R and the programs) -/

theorem test_decode_bitField :
    decode 0x00080881#32 = some (.bfFitsU 2 1 8) ∧
    decode 0x00050882#32 = some (.bfFitsS 2 1 5) ∧
    decode 0x090508C3#32 = some (.bfGetU 3 1 5 18) ∧
    decode 0x090508C4#32 = some (.bfGetS 3 1 5 18) ∧
    decode 0x1E041045#32 = some (.bfSetU 1 2 4 60) ∧
    decode 0x09051046#32 = some (.bfSetS 1 2 5 18) ∧
    decode 0x3FFF0883#32 = some (.bfGetU 2 1 127 127) := by decide

theorem test_decode_codec :
    decode 0x00005048#32 = some (.cwPack 1 10) ∧
    decode 0x00001509#32 = some (.cwUnpack 20 2) ∧
    decode 0x0000280A#32 = some (.cwEmit 5) ∧
    decode 0x0000010B#32 = some (.cwFetch 4) := by decide

theorem test_decode_quantizer :
    decode 0x00000890#32 = some (.qFA 2 1) ∧
    decode 0x00000891#32 = some (.qFBCD 2 1) ∧
    decode 0x00000892#32 = some (.qIA 2 1) ∧
    decode 0x00000893#32 = some (.qIBCD 2 1) ∧
    decode 0x00000894#32 = some (.qCIdx 2 1) ∧
    decode 0x0000F595#32 = some (.qCVal 22 30) := by decide

theorem test_decode_blocks :
    decode 0x00002518#32 = some (.dctFwd 20 4) ∧
    decode 0x0000A119#32 = some (.dctInv 4 20) ∧
    decode 0x0000385C#32 = some (.ccFwd 1 7) ∧
    decode 0x000009DD#32 = some (.ccInv 7 1) := by decide

theorem test_decode_control :
    decode 0x00002060#32 = some (.crRd 1 4) ∧ decode 0x00000861#32 = some (.crWr 1 1) := by decide

/-- E-1 to E-6, E-10, and E-12 to E-25: every condition of R85. -/
theorem test_decode_illegal :
    [0x00000000#32, 0x00000007#32, 0x0000003F#32, 0x00880881#32, 0x40080883#32, 0x80080883#32,
      0x00010890#32, 0x0000D848#32, 0x00000EC9#32, 0x0000284A#32, 0x000008CB#32, 0x000006D8#32,
      0x0000A818#32, 0x00000559#32, 0x0000D819#32, 0x0000079C#32, 0x0000F01D#32, 0x00002860#32,
      0x00000821#32, 0x000008A1#32].all (fun w => decode w == none) = true := by decide

/-- The encoder writes the words of R90's example and of E-18. -/
theorem test_encode :
    encode (.bfGetU 3 1 5 18) = 0x090508C3#32 ∧ encode (.dctFwd 26 20) = 0x0000A698#32 := by decide

/-- An illegal word aborts the unit with FAULTCMD the word (E-4). -/
theorem test_illegal_word :
    runs State.reset 0x00880881 (failed .illegalCommand 0x00880881 4#64) = true := by decide

/-! ### BitField -/

/-- B-C-1. -/
theorem test_bfFitsU_fits :
    runs (x12 255 0) 0x00080881 (fun t => done t && t.readX 2 == 1) = true := by decide
/-- B-FU-1: nothing fits width 0. -/
theorem test_bfFitsU_width_zero :
    runs (x12 0 7) 0x00000881 (fun t => done t && t.readX 2 == 0) = true := by decide
/-- B-C-3. -/
theorem test_bfFitsS_least :
    runs (x12 (BitVec.ofInt 64 (-16)) 0) 0x00050882 (fun t => done t && t.readX 2 == 1) = true := by
  decide
/-- B-FS-7. -/
theorem test_bfFitsS_too_large :
    runs (x12 16 7) 0x00050882 (fun t => done t && t.readX 2 == 0) = true := by decide
/-- B-C-4: source and destination are one register. -/
theorem test_bfGetU_in_place :
    runs (x12 W 0) 0x0A0C0843 (fun t => done t && t.readX 1 == 0x89A) = true := by decide
/-- E-7. -/
theorem test_bfGetU_too_wide :
    runs (x12 W 0) 0x00410883 (failed .preconditionViolation 0x00410883 1#64) = true := by decide
/-- P1 step 2: a negative field. -/
theorem test_bfGetS_negative :
    runs (x12 0xFFFFFFFFFFF7FFFF 0) 0x090508C4
      (fun t => done t && t.readX 3 == 0xFFFFFFFFFFFFFFFD) = true := by decide
/-- B-GS-8: width 0. -/
theorem test_bfGetS_width_zero :
    runs (x12 W 7) 0x00000884 (fun t => done t && t.readX 2 == 0) = true := by decide
/-- P4b step 1. -/
theorem test_bfSetU_top :
    runs (x12 W 15) 0x1E041045 (fun t => done t && t.readX 1 == 0xF123456789ABCDEF) = true := by
  decide
/-- B-C-7. -/
theorem test_bfSetU_overflow :
    runs (x12 W 16) 0x1E041045 (fun t =>
      failed .overflowError 0x1E041045 2#64 t && t.readX 1 == W) = true := by decide
/-- B-SS-1. -/
theorem test_bfSetS_negative :
    runs (x12 W (BitVec.ofInt 64 (-3))) 0x09051046
      (fun t => done t && t.readX 1 == 0x0123456789F7CDEF) = true := by decide
/-- B-SS-5. -/
theorem test_bfSetS_overflow :
    runs (x12 W (BitVec.ofInt 64 (-17))) 0x09051046 (failed .overflowError 0x09051046 2#64) = true := by
  decide

/-! ### CodewordCodec -/

/-- C-P-1. -/
theorem test_cwPack_fields :
    runs block 0x00005048 (fun t => done t && t.readX 1 == 0x9644E094) = true := by decide
/-- C-P-9. -/
theorem test_cwPack_overflow :
    runs (State.reset.writeXs 10 [0, BitVec.ofInt 64 (-17), 0, 0, 0, 0]) 0x00005048
      (failed .overflowError 0x00005048 2#64) = true := by decide
/-- C-U-3. -/
theorem test_cwUnpack_signs :
    runs (State.reset.writeX 2 0x00421080) 0x00001509 (fun t => done t &&
      xs t 20 6 == [0, 2 ^ 64 - 16, 2 ^ 64 - 16, 2 ^ 64 - 16, 8, 0]) = true := by decide
/-- C-U-6. -/
theorem test_cwUnpack_not_a_codeword :
    runs (State.reset.writeX 2 0x0000000100000000) 0x00001509
      (failed .preconditionViolation 0x00001509 1#64) = true := by decide
/-- C-S-1. -/
theorem test_cwEmit_big_endian :
    runs (State.reset.writeX 5 0x9644E094) 0x0000280A (fun t => done t &&
      t.outStream == [0x96#8, 0x44#8, 0xE0#8, 0x94#8] && t.outCount == 4) = true := by decide
/-- C-S-2. -/
theorem test_cwEmit_not_a_codeword :
    runs (State.reset.writeX 5 0x0000000100000000) 0x0000280A (fun t =>
      failed .preconditionViolation 0x0000280A 1#64 t && t.outStream == [] && t.outCount == 0) =
      true := by decide
/-- C-S-3. -/
theorem test_cwFetch_consumes_four :
    runs (streamed [0x96#8, 0x44#8, 0xE0#8, 0x94#8, 0x01#8] true) 0x000000CB (fun t =>
      done t && t.readX 3 == 0x9644E094 && t.inCount == 1) = true := by decide
/-- C-S-7 in one step: a closed short stream. -/
theorem test_cwFetch_truncated :
    runs (streamed [0x01#8, 0x02#8, 0x03#8] true) 0x000000CB (fun t =>
      failed .truncatedStreamError 0x000000CB 0x13#64 t && t.inCount == 3) = true := by decide

/-- C-S-5 and C-S-6: the fetch is held, and the host's fourth byte completes it. -/
theorem test_held_fetch :
    runs (streamed [0x01#8, 0x02#8, 0x03#8] false) 0x000000CB (fun t =>
      t.answers == [] && t.status == 8#64 && t.runState == .waiting) = true ∧
    ((nextOf (hostMove (.pushIn 0x04#8) waiting)).map fun t =>
      done t && t.readX 3 == 0x01020304 && t.inCount == 0 && t.status == 0#64) = some true := by
  decide

/-! ### Quantizer -/

/-- Q-A-6. -/
theorem test_qFA_floor :
    runs (f1 0x3F7FC000#32) 0x00000890 (fun t => done t && t.readX 2 == 510) = true := by
  decide +kernel
/-- Q-A-12: the floor of a small negative value is -1. -/
theorem test_qFA_negative :
    runs (f1 0x80000001#32) 0x00000890 (failed .overflowError 0x00000890 2#64) = true := by
  decide +kernel
/-- Q-B-9. -/
theorem test_qFBCD_toward_zero :
    runs (f1 0xBE999999#32) 0x00000891 (fun t => done t && t.readX 2 == BitVec.ofInt 64 (-14)) =
      true := by decide +kernel
/-- Q-B-1. -/
theorem test_qFBCD_clamped :
    runs (f1 0x3E99999A#32) 0x00000891 (fun t => done t && t.readX 2 == 15) = true := by
  decide +kernel
/-- Q-IA-5. -/
theorem test_qIA_rounded :
    runs (x12 319 0) 0x00000892 (fun t => done t && t.readF 2 == 0x3F1FCFE8#32) = true := by
  decide +kernel
/-- Q-IA-7. -/
theorem test_qIA_out_of_range :
    runs (x12 512 0) 0x00000892 (failed .preconditionViolation 0x00000892 1#64) = true := by
  decide +kernel
/-- Q-IB-8. -/
theorem test_qIBCD_least :
    runs (x12 (BitVec.ofInt 64 (-16)) 0) 0x00000893
      (fun t => done t && t.readF 2 == 0xBEA3D70A#32) = true := by decide +kernel
/-- Q-IB-10. -/
theorem test_qIBCD_out_of_range :
    runs (x12 (BitVec.ofInt 64 (-17)) 0) 0x00000893
      (failed .preconditionViolation 0x00000893 1#64) = true := by decide +kernel
/-- Q-CI-1: a tie goes to the lower index. -/
theorem test_qCIdx_tie :
    runs (f1 0x00000000#32) 0x00000894 (fun t => done t && t.readX 2 == 7) = true := by
  decide +kernel
/-- Q-CI-10. -/
theorem test_qCIdx_midpoint :
    runs (f1 0x3E8CCCCD#32) 0x00000894 (fun t => done t && t.readX 2 == 15) = true := by
  decide +kernel
/-- Q-CV-2. -/
theorem test_qCVal_entry :
    runs (x12 3 0) 0x00000895 (fun t => done t && t.readF 2 == 0xBDCCCCCD#32) = true := by decide
/-- Q-CV-7. -/
theorem test_qCVal_out_of_range :
    runs (x12 16 0) 0x00000895 (failed .preconditionViolation 0x00000895 1#64) = true := by decide

/-! ### Block transformer and colour-space converter -/

/-- D-F-1. -/
theorem test_dctFwd_quad :
    runs quad 0x00002518 (fun t => done t && fs t 20 6 ==
      [0x3F200000#32, 0x3E800000#32, 0x3E000000#32, 0x00000000#32, 0xBD000000#32, 0x3E000000#32]) =
      true := by decide +kernel
/-- D-F-10. -/
theorem test_dctFwd_nan :
    runs (quad.writeF 4 0x7FC00000#32) 0x00002518
      (failed .preconditionViolation 0x00002518 1#64) = true := by decide +kernel
/-- D-I-2: the chroma patterns are copied, -0 too. -/
theorem test_dctInv_copies_chroma :
    runs (State.reset.writeFs 20
      [0x3F000000#32, 0#32, 0#32, 0#32, 0x80000000#32, 0xBC343958#32]) 0x0000A119 (fun t => done t &&
        fs t 4 3 == [0x3F000000#32, 0x80000000#32, 0xBC343958#32] &&
        fs t 13 3 == [0x3F000000#32, 0x80000000#32, 0xBC343958#32]) = true := by decide +kernel
/-- D-I-3: overflow to +inf and exact evaluation. -/
theorem test_dctInv_overflow :
    runs (State.reset.writeFs 20 [0x7F7FFFFF#32, 0x7F7FFFFF#32, 0x7F7FFFFF#32, 0x7F7FFFFF#32, 0#32,
      0#32]) 0x0000A119 (fun t => done t && t.readF 4 == 0#32 && t.readF 13 == 0x7F800000#32) =
      true := by decide +kernel
/-- K-F-6. -/
theorem test_ccFwd_pixel :
    runs (scaled (State.reset.writeXs 7 [128, 64, 32]) 255) 0x0000385C (fun t => done t &&
      fs t 1 3 == [0x3E9F9975#32, 0xBDD73BCC#32, 0x3E0AF362#32]) = true := by decide +kernel
/-- K-F-12. -/
theorem test_ccFwd_channel_too_large :
    runs (scaled (State.reset.writeXs 7 [256, 0, 0]) 255) 0x0000385C
      (failed .preconditionViolation 0x0000385C 1#64) = true := by decide +kernel
/-- K-I-4. -/
theorem test_ccInv_pixel :
    runs (scaled (State.reset.writeFs 1 [0x3F800000#32, 0xBC343958#32, 0xBC343958#32]) 255)
      0x000009DD (fun t => done t && xs t 7 3 == [251, 255, 250]) = true := by decide +kernel
/-- K-I-5: 127.5 rounds away from zero. -/
theorem test_ccInv_half :
    runs (scaled (State.reset.writeFs 1 [0x3F000000#32, 0#32, 0#32]) 255)
      0x000009DD (fun t => done t && xs t 7 3 == [128, 128, 128]) = true := by decide +kernel

/-! ### Control registers and the host port -/

/-- R-3. -/
theorem test_crRd_status :
    runs (streamed [1#8, 2#8, 3#8, 4#8, 5#8, 6#8] true) 0x000000A0
      (fun t => done t && t.readX 2 == 0x10) = true ∧
    runs (streamed [1#8, 2#8, 3#8, 4#8, 5#8, 6#8] true) 0x000010E0
      (fun t => done t && t.readX 3 == 6) = true := by decide
/-- E-23. -/
theorem test_crRd_reserved :
    runs State.reset 0x00002860 (failed .illegalCommand 0x00002860 4#64) = true := by decide
/-- R-1. -/
theorem test_crWr_denom :
    runs (x12 255 0) 0x00000861 (fun t => done t && t.denom == 255) = true := by decide
/-- E-24. -/
theorem test_crWr_other :
    runs (x12 255 0) 0x00000821 (failed .illegalCommand 0x00000821 4#64) = true := by decide

/-- P4 steps 2 and 4: an aborted unit refuses, and H.RESET makes it IDLE. -/
theorem test_aborted_refuses_until_reset :
    runs aborted 0x0F281045 (fun t => t.answers == [.refused] && t.status == 2#64 &&
      t.faultCmd == 0x1E041045#32) = true ∧
    ((nextOf (hostMove .reset aborted)).map fun t =>
      t.status == 0#64 && t.faultCmd == 0#32 && t.runState == .idle) = some true := by decide

/-- P4 step 3 and R34: reading an unwritten register is recorded. -/
theorem test_unwritten_read :
    ((nextOf (hostMove (.readX 3) State.reset)).map fun t => t.faults) =
      some [.unwrittenRead (.x 3)] := by decide

/-! ## Witnesses -/

/-! ### Encoding, port, errors -/

theorem witness_EncodeOfDecode : decode 0x0000A698#32 = some (.dctFwd 26 20) := by decide

/-- One illegal word for each condition of R85, and an IDLE state. -/
theorem witness_IllegalWords :
    IllegalWord 0x0000003F#32 ∧ IllegalWord 0x80080883#32 ∧ IllegalWord 0x00880881#32 ∧
      IllegalWord 0x00010890#32 ∧ IllegalWord 0x0000284A#32 ∧ IllegalWord 0x000008CB#32 ∧
      IllegalWord 0x0000D848#32 ∧ IllegalWord 0x00002860#32 ∧ IllegalWord 0x00000821#32 ∧
      State.reset.runState = .idle := by
  refine ⟨?_, ?_, ?_, ?_, ?_, ?_, ?_, ?_, ?_, by decide⟩ <;> (simp only [IllegalWord]; decide)

theorem witness_StepRuns_port :
    (State.reset.withFetchWord 32 0x000000CB).runState = .idle ∧
      (State.reset.withFetchWord 32 0x000000CB).portWords = [0x000000CB#32] ∧
      decode 0x000000CB#32 = some (.cwFetch 3) := by decide

theorem witness_StepRuns_host :
    ∃ s : State, s.runState = .idle ∧ s.portWords = [] ∧ s.hostOps = [.issue 0x000000CB#32] ∧
      decode 0x000000CB#32 = some (.cwFetch 3) :=
  ⟨{ State.reset with hostOps := [.issue 0x000000CB#32] }, by decide⟩

/-- A waiting state has the invariant, and a step. -/
theorem witness_Inv_waiting :
    waiting.Inv ∧ waiting.runState = .waiting ∧ waiting.held = some 3 ∧
      waiting.inStream = [0x01#8, 0x02#8, 0x03#8] ∧ waiting.hostOps = [] ∧
      ∃ t, step waiting = .next t :=
  ⟨⟨by decide, by decide, by decide, by decide, by decide⟩, by decide, by decide, by decide,
    by decide, _, rfl⟩

/-- A waiting state that the next byte does not satisfy. -/
theorem witness_Inv_waiting_short :
    ∃ s : State, s.Inv ∧ s.held = some 3 ∧ s.inStream.length < 3 :=
  ⟨{ streamed [0x01#8, 0x02#8] false with held := some 3 },
    ⟨by decide, by decide, by decide, by decide, by decide⟩, by decide, by decide⟩

/-- Each host operation of HeldFetchWaitsForTheHost's fourth clause has a next state while waiting. -/
theorem witness_waiting_moves :
    (∃ t, hostMove .drainOut waiting = .next t) ∧ (∃ t, hostMove (.readCR .status) waiting = .next t) ∧
      ∃ t, hostMove (.issue 0x0000010B#32) waiting = .next t :=
  ⟨⟨_, rfl⟩, ⟨_, rfl⟩, ⟨_, rfl⟩⟩

/-- An aborted state has the invariant, an open stream, and a step. -/
theorem witness_Inv_aborted :
    aborted.Inv ∧ aborted.err.isSome = true ∧ aborted.inClosed = false ∧
      aborted.inStream.length < 2 ^ 64 - 1 ∧ ∃ t, step aborted = .next t :=
  ⟨⟨by decide, by decide, by decide, by decide, by decide⟩, by decide, by decide, by decide, _, rfl⟩

/-- An aborted state whose next step is the host's reset. -/
theorem witness_OnlyReset_reset :
    ∃ s : State, s.Inv ∧ s.err.isSome = true ∧ nextMove s = .host .reset [] ∧
      ∃ t, step s = .next t :=
  ⟨{ aborted with hostOps := [.reset] }, ⟨by decide, by decide, by decide, by decide, by decide⟩,
    by decide, by decide, _, rfl⟩

/-- A run that errs, for each kind of error. -/
theorem witness_ErrorsEnter :
    State.reset.err = none ∧
      ((nextOf (runWord 0x00410883#32 State.reset)).map (·.err)) =
        some (some .preconditionViolation) ∧
      ((nextOf (runWord 0x1E041045#32 (x12 W 16))).map (·.err)) = some (some .overflowError) ∧
      ((nextOf (runWord 0x000000CB#32 (streamed [] true))).map (·.err)) =
        some (some .truncatedStreamError) ∧
      ((nextOf (runWord 0x00000000#32 State.reset)).map (·.err)) = some (some .illegalCommand) := by
  decide

/-- ErrorTable's hypotheses, and a command on each side of each column. -/
theorem witness_ErrorTable :
    (Instr.bfSetU 1 2 64 1).wf = true ∧ State.reset.err = none ∧
      decode 0x00000000#32 = none ∧
      RaisesPrecondition State.reset (.bfSetU 1 2 64 1) ∧
      ¬RaisesPrecondition State.reset (.bfSetU 1 2 64 0) ∧
      RaisesOverflow (x12 W 16) (.bfSetU 1 2 4 60) ∧
      ¬RaisesOverflow (x12 W 15) (.bfSetU 1 2 4 60) := by
  refine ⟨by decide, by decide, by decide, ?_, ?_, ?_, ?_⟩ <;>
    simp only [RaisesPrecondition, RaisesOverflow, Pre, UFits] <;> decide

theorem witness_RaisesTruncated :
    RaisesTruncated (streamed [1#8, 2#8, 3#8] true) (.cwFetch 3) := ⟨⟨3, rfl⟩, by decide, by decide⟩

theorem witness_WaitingPort :
    ∃ s : State, s.runState ≠ .waiting ∧ s.portWords = [0x000000CB#32] :=
  ⟨{ aborted with portWords := [0x000000CB#32] }, by decide⟩

theorem witness_Forbidden : (streamed [] true).inClosed = true := by decide

theorem witness_HostWrites : State.reset.runState ≠ .waiting ∧ aborted.runState ≠ .waiting := by
  decide

/-- An IDLE state with a written register and an unwritten one, in both files, and an ABORTED state. -/
theorem witness_HostReads :
    (f1 0x3F800000#32).runState ≠ .waiting ∧ (f1 0x3F800000#32).written (.f 1) = true ∧
      (f1 0x3F800000#32).written (.f 2) = false ∧ (x12 1 2).written (.x 2) = true ∧
      (x12 1 2).written (.x 3) = false ∧ aborted.runState ≠ .waiting := by decide

theorem witness_OnlyTheirCommand : ∃ t, exec (.crWr 1 31) State.reset = .next t := ⟨_, rfl⟩

theorem witness_PushAndClose :
    (streamed [1#8] false).held = none ∧ (streamed [1#8] false).inClosed = false ∧
      (streamed [1#8] false).inStream.length < 2 ^ 64 - 1 := by decide

theorem witness_Drain :
    ({ State.reset with outStream := [0x96#8, 0x44#8] } : State).outStream = [0x96#8, 0x44#8] ∧
      State.reset.outStream = [] := by decide

/-! ### BitField and CodewordCodec -/

/-- Widths at the bound and above it. -/
theorem witness_Fits_width : ((64 : Imm7)).val ≤ 64 ∧ 64 < ((65 : Imm7)).val := by decide

/-- Both answers of the two fits, at the ends of the ranges, and at width 0. -/
theorem witness_Fits_values :
    UFits 255 8 ∧ ¬UFits 256 8 ∧ ¬UFits 0 0 ∧ SFits (-16) 5 ∧ SFits 15 5 ∧ ¬SFits (-17) 5 ∧
      ¬SFits 16 5 ∧ ¬SFits 0 0 := by
  unfold UFits SFits; decide

/-- The range of a field at its bounds: the whole word, the empty field at 64, and one bit beyond. -/
theorem witness_Pre : Pre 64 0 ∧ Pre 0 64 ∧ Pre 1 63 ∧ ¬Pre 64 1 ∧ ¬Pre 65 0 ∧ ¬Pre 0 65 := by
  unfold Pre; decide

/-- BF.SETU and BF.SETS on a legal range: a value that fits, and one that does not. -/
theorem witness_BfSet :
    Pre 4 60 ∧ UFits ((x12 W 15).readX 2).toNat 4 ∧ ¬UFits ((x12 W 16).readX 2).toNat 4 ∧
      Pre 5 18 ∧ SFits ((x12 W (BitVec.ofInt 64 (-16))).readX 2).toInt 5 ∧
      ¬SFits ((x12 W (BitVec.ofInt 64 (-17))).readX 2).toInt 5 := by
  unfold Pre UFits SFits; decide

theorem witness_GetOfSet :
    fitsU (2 ^ 64 - 1) 64 = .ok true ∧ fitsS (-2 ^ 63) 64 = .ok true ∧ fitsU 15 4 = .ok true := by
  refine ⟨rfl, rfl, rfl⟩

theorem witness_SetKeeps :
    setU W 4 60 15 = .ok 0xF123456789ABCDEF#64 ∧ setS W 5 18 (-3) = .ok 0x0123456789F7CDEF#64 ∧
      getU W 4 4 = .ok 0xE ∧ getS W 4 4 = .ok (-2) := by
  refine ⟨rfl, rfl, rfl, rfl⟩

/-- Groups at their bound; a block that fits and two that do not (C-P-2, C-P-7, C-P-13). -/
theorem witness_CwPack :
    ((26 : Reg)).val ≤ 26 ∧ BlockFits (readBlock block 10) ∧ BlockFits ⟨511, 15, 15, 15, 15, 15⟩ ∧
      ¬BlockFits (readBlock (State.reset.writeXs 10 [512, 0, 0, 0, 0, 0]) 10) ∧
      ¬BlockFits ⟨0, 0, 0, 0, 0, 16⟩ := by
  unfold BlockFits; decide

/-- A codeword register and one that is none, the least (C-U-6). -/
theorem witness_Codeword :
    ((x12 0xFFFFFFFF 0).readX 1).extractLsb' 32 32 = 0#32 ∧
      ((x12 0x100000000 0).readX 1).extractLsb' 32 32 ≠ 0#32 := by decide

theorem witness_PackUnpack :
    pack ⟨300, -15, 7, 0, 9, 4⟩ = .ok 0x9644E094#64 ∧ (0xFFFFFFFF#64).toNat < 2 ^ 32 :=
  ⟨rfl, by decide⟩

theorem witness_CwFetch :
    (streamed [1#8, 2#8, 3#8, 4#8] true).inStream = 1#8 :: 2#8 :: 3#8 :: 4#8 :: [] ∧
      (streamed [1#8, 2#8, 3#8] true).inStream.length < 4 ∧
      (streamed [1#8, 2#8, 3#8] true).inClosed = true ∧
      (streamed [1#8, 2#8, 3#8] false).inStream.length < 4 ∧
      (streamed [1#8, 2#8, 3#8] false).inClosed = false ∧
      (streamed [1#8, 2#8, 3#8] false).err = none := by decide

/-! ### Real numbers and quantizer -/

/-- Patterns at the ends of the exponent's ranges: 0, 1, 254, and 255 of an infinity. -/
theorem witness_Patterns :
    ((0x807FFFFF#32 : Word32).extractLsb' 23 8).toNat = 0 ∧
      ((0x00800000#32 : Word32).extractLsb' 23 8).toNat = 1 ∧
      ((0xFF7FFFFF#32 : Word32).extractLsb' 23 8).toNat = 254 ∧
      ((0x7F800000#32 : Word32).extractLsb' 23 8).toNat = 255 := by decide

/-- Values of either sign that round to a zero, and one that rounds to an infinity. -/
theorem witness_RoundingSign :
    (0 : ℚ) < 1 / 2 ^ 200 ∧ (-(1 / 2 ^ 200) : ℚ) < 0 ∧ (0 : ℚ) < 2 ^ 200 := by
  refine ⟨?_, ?_, ?_⟩ <;> norm_num

/-- A value below the overflow threshold, and the threshold of either sign. -/
theorem witness_Rounding :
    |(1 / 3 : ℚ)| < 2 ^ 128 - 2 ^ 103 ∧ (2 ^ 128 - 2 ^ 103 : ℚ) ≤ 2 ^ 128 - 2 ^ 103 ∧
      (-(2 ^ 128 - 2 ^ 103) : ℚ) ≤ -(2 ^ 128 - 2 ^ 103) := by
  refine ⟨?_, le_refl _, le_refl _⟩
  rw [abs_of_pos] <;> norm_num

/-- Halfway between 1 and the next value. -/
theorem witness_RoundingTies :
    |(1 + 1 / 2 ^ 24 : ℚ)| < 2 ^ 128 - 2 ^ 103 ∧ isFinite 0x3F800001#32 = true ∧
      val32 0x3F800001#32 ≠ val32 (rnd32 (1 + 1 / 2 ^ 24)) ∧
      |(1 + 1 / 2 ^ 24 : ℚ) - val32 (rnd32 (1 + 1 / 2 ^ 24))| =
        |(1 + 1 / 2 ^ 24 : ℚ) - val32 0x3F800001#32| := by decide +kernel

theorem witness_RoundingExact : isFinite 0x00000001#32 = true ∧ 0x00000001#32 ≠ 0x80000000#32 := by
  decide

/-- Patterns that are finite and not, and the ranges of Q.FA at both ends (Q-A-1, Q-A-2, Q-A-8,
Q-A-12). -/
theorem witness_QFA :
    isFinite ((f1 0x7F800000#32).readF 1) = false ∧ isFinite ((f1 0x7F7FFFFF#32).readF 1) = true ∧
      (((511 : Nat) : ℚ) ≤ val32 0x3F800000#32 * 511 ∧ val32 0x3F800000#32 * 511 < ((511 : Nat) : ℚ) + 1) ∧
      (((0 : Nat) : ℚ) ≤ val32 0x00000000#32 * 511 ∧ val32 0x00000000#32 * 511 < ((0 : Nat) : ℚ) + 1) ∧
      512 ≤ val32 0x3F808000#32 * 511 ∧ val32 0x80000001#32 < 0 := by decide +kernel

/-- Values at and inside the clamp thresholds of Q.FBCD, of both signs (Q-B-1, Q-B-2, Q-B-8, Q-B-9). -/
theorem witness_QFBCD :
    3 / 10 ≤ val32 0x3E99999A#32 ∧ val32 0xBE99999A#32 ≤ -(3 / 10) ∧
      (val32 0x3E999999#32 < 3 / 10 ∧ 0 ≤ val32 0x3E999999#32) ∧
      (-(3 / 10) < val32 0xBE999999#32 ∧ val32 0xBE999999#32 ≤ 0) := by decide +kernel

theorem witness_QuantizedPack :
    isFinite 0x7F7FFFFF#32 = true ∧ isFinite 0xFF7FFFFF#32 = true ∧ isFinite 0x80000000#32 = true := by
  decide

/-- The dequantizer's sources at the ends of their ranges and beyond. -/
theorem witness_QI :
    ((x12 511 0).readX 1).toNat ≤ 511 ∧ 511 < ((x12 512 0).readX 1).toNat ∧
      (-16 ≤ ((x12 (BitVec.ofInt 64 (-16)) 0).readX 1).toInt ∧
        ((x12 (BitVec.ofInt 64 (-16)) 0).readX 1).toInt ≤ 15) ∧
      (-16 ≤ ((x12 15 0).readX 1).toInt ∧ ((x12 15 0).readX 1).toInt ≤ 15) ∧
      ((x12 (BitVec.ofInt 64 (-17)) 0).readX 1).toInt < -16 ∧ 15 < ((x12 16 0).readX 1).toInt := by
  decide

theorem witness_QCVal :
    ((x12 15 0).readX 1).toNat = ((15 : Fin 16)).val ∧ 15 < ((x12 16 0).readX 1).toNat := by decide

/-- A table of 16 distinct values beside the default one. -/
theorem witness_ChromaLookup :
    ∃ table : Vector Word32 16, ∀ j k : Fin 16, val32 table[j] = val32 table[k] → j = k :=
  ⟨#v[0#32, 1#32, 2#32, 3#32, 4#32, 5#32, 6#32, 7#32, 8#32, 9#32, 10#32, 11#32, 12#32, 13#32, 14#32,
    15#32], by decide +kernel⟩

/-! ### Block transformer, colour-space converter, control registers -/

/-- Group bounds, a finite quad, and one with a NaN; its y values are multiples of 2^-22 in [0,1]. -/
theorem witness_Dct :
    ((26 : Reg)).val ≤ 26 ∧ ((20 : Reg)).val ≤ 20 ∧
      (∀ k < 12, isFinite (quad.readF (groupReg 4 k)) = true) ∧
      (∃ k < 12, isFinite ((quad.writeF 4 0x7FC00000#32).readF (groupReg 4 k)) = false) ∧
      (∀ k < 6, isFinite (quad.readF (groupReg 4 k)) = true) ∧
      (∃ k < 6, isFinite ((quad.writeF 4 0x7FC00000#32).readF (groupReg 4 k)) = false) ∧
      ∀ p < 4, ∃ n : Nat, n ≤ 2 ^ 22 ∧
        val32 (quad.readF (groupReg 4 (3 * p))) = (n : ℚ) / 2 ^ 22 := by
  refine ⟨by decide, by decide, by decide +kernel, ⟨0, by decide +kernel⟩, by decide +kernel,
    ⟨0, by decide +kernel⟩, fun p hp => ⟨2 ^ 20 * (p + 1), by omega, ?_⟩⟩
  have h : ∀ p < 4, val32 (quad.readF (groupReg 4 (3 * p))) = ((2 ^ 20 * (p + 1) : Nat) : ℚ) / 2 ^ 22 := by
    decide +kernel
  exact h p hp

/-- Legal channels up to DENOM itself; DENOM 0; a channel above DENOM (K-F-1, K-F-12, K-F-13). -/
theorem witness_CcFwd :
    ((29 : Reg)).val ≤ 29 ∧ 0 < (scaled State.reset 255).denom.toNat ∧
      (∀ k < 3, ((State.reset.writeXs 7 [255, 255, 255]).readX (groupReg 7 k)).toNat ≤ 255) ∧
      State.reset.denom.toNat = 0 ∧
      ∃ k < 3, 255 < ((State.reset.writeXs 7 [256, 0, 0]).readX (groupReg 7 k)).toNat := by
  refine ⟨by decide, by decide, by decide, by decide, 0, by decide⟩

/-- A grey pixel with the white value. -/
theorem witness_Grey :
    ∃ s : State, 0 < s.denom.toNat ∧ (∀ k < 3, s.readX (groupReg 7 k) = s.readX 7) ∧
      (s.readX 7).toNat ≤ s.denom.toNat ∧ s.readX 7 = s.denom :=
  ⟨scaled (State.reset.writeXs 7 [255, 255, 255]) 255, by decide⟩

/-- Finite sources with DENOM above 0, and a source that is not finite. -/
theorem witness_CcInv :
    0 < (scaled quad 255).denom.toNat ∧ (∀ k < 3, isFinite (quad.readF (groupReg 4 k)) = true) ∧
      ∃ k < 3, isFinite ((quad.writeF 4 0x7F800000#32).readF (groupReg 4 k)) = false := by
  refine ⟨by decide, by decide +kernel, 0, by decide +kernel⟩

theorem witness_CrRd : State.reset.runState = .idle ∧ 4 < ((5 : Reg)).val := by decide

theorem witness_CrWr : ((0 : Reg)).val ≠ 1 ∧ ((2 : Reg)).val ≠ 1 := by decide

end Sys2Proof.Tests
end

section
/-! PROOFS. What every view of the state shows after reset (R46, R230). The power-on state is the
`H.RESET` of itself, so one set of lemmas about `hostReset` serves both. -/

namespace Sys2Proof.Machine

namespace State

variable (s : State)

/-- `H.RESET` of the power-on state changes nothing. -/
@[simp] theorem hostReset_reset : State.reset.hostReset = State.reset := rfl

@[simp] theorem written_hostReset (q : RegName) : s.hostReset.written q = false := by
  cases q with
  | x r => simp [written]
  | f r => simp [written]

@[simp] theorem inCount_hostReset : s.hostReset.inCount = 0#64 := rfl

@[simp] theorem readCR_faultCmd_hostReset : s.hostReset.readCR .faultCmd = 0#64 := rfl

end State

@[simp] theorem hostMove_reset (s : State) : hostMove .reset s = .next s.hostReset := rfl

/-- Settles O8: each conjunct is the field or view lemma of `hostReset`, taken at the power-on state and
at the state the host resets. -/
theorem resetState : Obligations.ResetState := by
  intro s
  refine ⟨s.hostReset, hostMove_reset s, s.hostReset_config, fun r hr => ?_⟩
  obtain ⟨u, rfl⟩ : ∃ u : State, r = u.hostReset := by
    obtain rfl | rfl : r = State.reset ∨ r = s.hostReset := by simpa using hr
    · exact ⟨State.reset, State.hostReset_reset.symm⟩
    · exact ⟨s, rfl⟩
  simp

end Sys2Proof.Machine
end

section
/-! PROOFS. The words the decoder rejects (R85, R91) and what an IDLE unit answers them (R211). A format
checks its reserved bits and hands on one command, so a word of an assigned opcode is rejected when a
reserved bit of it is not 0 or when its command is ill-formed. -/

namespace Sys2Proof

open Sys2Proof.Claims

/-! ### The slices of a word are the decoder's fields -/

theorem toNat_extractLsb'_opc (w : Word32) : (w.extractLsb' 0 6).toNat = opcField w :=
  toNat_extractLsb'_word w 0 6

theorem toNat_extractLsb'_rd (w : Word32) : (w.extractLsb' 6 5).toNat = (rdField w).val :=
  toNat_extractLsb'_word w 6 5

theorem toNat_extractLsb'_rs (w : Word32) : (w.extractLsb' 11 5).toNat = (rsField w).val :=
  toNat_extractLsb'_word w 11 5

theorem extractLsb'_word_eq_zero_iff (w : Word32) (lo len : Nat) :
    w.extractLsb' lo len = 0#len ↔ wordField w lo len = 0 := by
  rw [← BitVec.toNat_inj, toNat_extractLsb'_word, BitVec.toNat_zero]

/-! ### What a format hands on -/

@[simp] theorem formatR_eq_some_iff (w : Word32) (i j : Instr) :
    formatR w i = some j ↔ wordField w 16 16 = 0 ∧ i = j := by
  simp [formatR]

@[simp] theorem formatB_eq_some_iff (w : Word32) (i j : Instr) :
    formatB w i = some j ↔ wordField w 30 2 = 0 ∧ i = j := by
  simp [formatB]

@[simp] theorem formatBNoLsb_eq_some_iff (w : Word32) (i j : Instr) :
    formatBNoLsb w i = some j ↔ wordField w 23 7 = 0 ∧ wordField w 30 2 = 0 ∧ i = j := by
  change (if wordField w 23 7 = 0 then formatB w i else none) = some j ↔ _
  simp

/-! ### Rejected words -/

/-- By the opcode, as `decodeFields` splits it. A register number is kept as a number, which is how
`IllegalWord` bounds it. -/
theorem decode_eq_none_iff (w : Word32) : decode w = none ↔ IllegalWord w := by
  simp only [IllegalWord, toNat_extractLsb'_opc, toNat_extractLsb'_rd, toNat_extractLsb'_rs,
    ne_eq, extractLsb'_word_eq_zero_iff]
  rw [decode, Option.filter_eq_none_iff]
  unfold decodeFields
  split
  case h_23 => -- no assigned opcode: condition 1
    simp only [reduceCtorEq, false_imp_iff, implies_true, true_iff]
    left
    grind
  all_goals -- an assigned opcode: its reserved fields, then the operands of its command
    rename_i hopc
    simp [hopc, Instr.wf, groupFits, -Fin.val_eq_zero_iff] <;> omega

namespace Machine

theorem issue_of_idle {s : State} (w : Word32) (h : s.runState = .idle) :
    issue w s = runWord w s := by
  simp [issue, h]

theorem runWord_of_decode_none {w : Word32} (s : State) (h : decode w = none) :
    runWord w s = .next (s.errorEntry .illegalCommand w) := by
  simp [runWord, h]

/-- Settles O3: the decoder rejects exactly the illegal words, and a rejected word reaches error entry
with nothing done before it. -/
theorem illegalWordsEnterIllegalCommand : Obligations.IllegalWordsEnterIllegalCommand := by
  intro w
  refine ⟨decode_eq_none_iff w, fun hw s hs => ⟨s.errorEntry .illegalCommand w, ?_, ?_⟩⟩
  · rw [issue_of_idle w hs, runWord_of_decode_none s ((decode_eq_none_iff w).2 hw)]
  · exact errorEntry_entered s .illegalCommand w

end Machine

end Sys2Proof
end

section
/-! PROOFS. The six BitField commands (R110 to R115). Each computes one value from its sources and writes
it to one X register, so the frame of a completed run and the entry of a failed check are proved once
here, over the computation, and each command adds what its primitive answers (R101 to R106). -/

namespace Sys2Proof.Machine

open Sys2Proof.Claims

/-! ### Commands that write one X register -/

section OneXRegister

variable {α : Type} {i : Instr} {s : State} {reads : List RegName} {xd : Reg}
  {compute : State → Except ErrKind α} {toWord : α → Word64}

theorem completes_of_compute_ok {a : α} {post : State → Prop}
    (hexec : exec i s =
      runCommand i reads (fun t => (compute t).map fun a => t.writeX xd (toWord a)) s)
    (hwf : i.wf = true) (hok : compute (s.noteReads reads) = .ok a)
    (hpost : ∀ t : State, t.readX xd = toWord a → post t) :
    Completes i s (· = xd) noReg post := by
  refine ⟨((s.noteReads reads).writeX xd (toWord a)).answer .done, ?_,
    registersOnly_writeX s reads xd (toWord a), hpost _ (by simp)⟩
  rw [hexec, runCommand_done hwf (by rw [hok]; rfl)]

theorem raises_of_compute_error {k : ErrKind}
    (hexec : exec i s =
      runCommand i reads (fun t => (compute t).map fun a => t.writeX xd (toWord a)) s)
    (hwf : i.wf = true) (herr : compute (s.noteReads reads) = .error k) :
    Raises i s k := by
  refine ⟨(s.noteReads reads).errorEntry k (encode i), ?_, noteReads_errorEntry_entered s reads k _⟩
  rw [hexec, runCommand_error hwf (by rw [herr]; rfl)]

end OneXRegister

/-! ### The primitives in the words of the statements -/

theorem pre_iff {w lsb : Imm7} : Pre w lsb ↔ w.val + lsb.val ≤ 64 := by
  simp only [Pre]
  omega

theorem fitsU_error {v w : Nat} (h : 64 < w) : fitsU v w = .error .preconditionViolation := by
  simp [fitsU, h]

theorem fitsS_error {v : Int} {w : Nat} (h : 64 < w) :
    fitsS v w = .error .preconditionViolation := by
  simp [fitsS, h]

theorem predicateWord_cases {b : Bool} {p : Prop} (h : b = true ↔ p) :
    (p → predicateWord b = 1#64) ∧ (¬p → predicateWord b = 0#64) := by
  rw [← h]
  cases b with
  | false => simp [predicateWord]
  | true => simp [predicateWord]

/-- The low bits of a signed reading, as R106 takes them, are the word's own low bits. -/
theorem testBit_sint_emod (v : Word64) {w j : Nat} (hw : w ≤ 64) (hj : j < w) :
    (sint v % 2 ^ w).toNat.testBit j = v.getLsbD j := by
  have hlow : (sint v % 2 ^ w).toNat = (v.setWidth w).toNat := by
    rw [← BitVec.signExtend_eq_setWidth_of_le v hw, BitVec.signExtend, BitVec.toNat_ofInt]
    push_cast
    rfl
  rw [hlow, BitVec.testBit_toNat, BitVec.getLsbD_setWidth]
  simp [hj]

/-! ### BF.FITSU, BF.FITSS -/

/-- Settles O22: the predicate of R101 at every width up to 64, and the width check above. -/
theorem bfFitsUResult : Obligations.BfFitsUResult := by
  intro s xd xs w
  constructor
  · intro h
    refine completes_of_compute_ok (exec_bfFitsU s xd xs w) rfl (fitsU_eq _ h) fun t ht => ?_
    rw [ht]
    exact predicateWord_cases decide_eq_true_iff
  · intro h
    exact raises_of_compute_error (exec_bfFitsU s xd xs w) rfl (fitsU_error h)

/-- Settles O23: as O22, with the signed predicate of R102. -/
theorem bfFitsSResult : Obligations.BfFitsSResult := by
  intro s xd xs w
  constructor
  · intro h
    refine completes_of_compute_ok (exec_bfFitsS s xd xs w) rfl (fitsS_eq _ h) fun t ht => ?_
    rw [ht]
    exact predicateWord_cases decide_eq_true_iff
  · intro h
    exact raises_of_compute_error (exec_bfFitsS s xd xs w) rfl (fitsS_error h)

/-! ### BF.GETU, BF.GETS -/

/-- Settles O24: R103 answers the slice's number, and its 64-bit pattern is the slice zero-extended. -/
theorem bfGetUResult : Obligations.BfGetUResult := by
  intro s xd xs w lsb
  rw [pre_iff]
  constructor
  · intro h
    refine completes_of_compute_ok (exec_bfGetU s xd xs w lsb) rfl (getU_eq h) fun t ht => ?_
    rw [ht]
    exact BitVec.ofNat_toNat 64 _
  · intro h
    exact raises_of_compute_error (exec_bfGetU s xd xs w lsb) rfl (getU_error h)

/-- Settles O25: R104 answers the slice's signed number, whose 64-bit pattern is by definition the slice
sign-extended. -/
theorem bfGetSResult : Obligations.BfGetSResult := by
  intro s xd xs w lsb
  rw [pre_iff]
  constructor
  · intro h
    exact completes_of_compute_ok (exec_bfGetS s xd xs w lsb) rfl (getS_eq h) fun t ht => ht
  · intro h
    exact raises_of_compute_error (exec_bfGetS s xd xs w lsb) rfl (getS_error h)

/-! ### BF.SETU, BF.SETS -/

/-- Settles O26: the inserted field bit by bit. The sources are read before the destination is written,
so `xd = xs` is no special case. -/
theorem bfSetUResult : Obligations.BfSetUResult := by
  intro s xd xs w lsb
  rw [pre_iff]
  refine ⟨fun h hfit => ?_, fun h hfit => ?_, fun h => ?_⟩
  · obtain ⟨hpos, hlt⟩ := hfit
    refine completes_of_compute_ok (exec_bfSetU s xd xs w lsb) rfl (setU_eq h hpos hlt)
      fun t ht k hk => ?_
    rw [ht]
    exact getLsbD_insertField (s.readX xd) w.val lsb.val (uint (s.readX xs)) k hk hlt
  · exact raises_of_compute_error (exec_bfSetU s xd xs w lsb) rfl (setU_overflow h hfit)
  · exact raises_of_compute_error (exec_bfSetU s xd xs w lsb) rfl (setU_error h)

/-- Settles O27: as O26, where the bits inserted are those of the value's signed reading modulo `2^w`,
which are the source's own low bits. -/
theorem bfSetSResult : Obligations.BfSetSResult := by
  intro s xd xs w lsb
  rw [pre_iff]
  refine ⟨fun h hfit => ?_, fun h hfit => ?_, fun h => ?_⟩
  · obtain ⟨hpos, hrange⟩ := hfit
    refine completes_of_compute_ok (exec_bfSetS s xd xs w lsb) rfl (setS_eq h hpos hrange)
      fun t ht k hk => ?_
    rw [ht, getLsbD_insertField _ _ _ _ _ hk (emod_two_pow_lt _ _)]
    split
    next => exact testBit_sint_emod (s.readX xs) (by omega) (by omega)
    next => rfl
  · exact raises_of_compute_error (exec_bfSetS s xd xs w lsb) rfl (setS_overflow h hfit)
  · exact raises_of_compute_error (exec_bfSetS s xd xs w lsb) rfl (setS_error h)

end Sys2Proof.Machine
end

section
/-! PROOFS. CW.PACK (R131, R135): a block that fits packs into a word with the layout of R130, since the
six fields are disjoint and each insertion keeps the fields before it. -/

namespace Sys2Proof.Machine

open Sys2Proof.Claims

/-- R131 on a block in the field ranges. Each slice looks through the insertions after its own, and
bits 63:32 through all six. -/
theorem pack_hasLayout {k : ScaledDctBlock} (h : BlockFits k) :
    ∃ cw, pack k = .ok cw ∧ HasLayout cw k := by
  obtain ⟨ha, hb, hc, hd, h1, h0⟩ := h
  have unsigned {w v : Nat} (hv : v < 2 ^ w) : (BitVec.ofNat w v).toNat = v :=
    (BitVec.toNat_ofNat v w).trans (Nat.mod_eq_of_lt hv)
  have signed {v : Int} (hv : -16 ≤ v ∧ v ≤ 15) : (BitVec.ofNat 5 (v % 2 ^ 5).toNat).toInt = v :=
    toInt_ofNat_emod v (by decide) (by omega) (by omega)
  refine ⟨_, pack_eq ha hb hc hd h1 h0, ?_⟩
  simp (disch := omega) only [HasLayout, extractLsb'_insertField_disjoint,
    extractLsb'_insertField_same]
  exact ⟨unsigned (by omega), signed hb, signed hc, signed hd, unsigned (by omega),
    unsigned (by omega), rfl⟩

/-- Settles O30: the six registers are packed as one block, and packing writes the codeword of a block
that fits or raises the overflow of the first field that does not. -/
theorem cwPackResult : Obligations.CwPackResult := by
  intro s xd xs hxs
  have hwf : (Instr.cwPack xd xs).wf = true :=
    decide_eq_true (by omega : xs.val + 6 ≤ 32)
  constructor
  · intro h
    obtain ⟨cw, hpack, hlayout⟩ := pack_hasLayout h
    refine completes_of_compute_ok (exec_cwPack s xd xs) hwf hpack fun t ht => ?_
    rw [ht]
    exact hlayout
  · intro h
    exact raises_of_compute_error (exec_cwPack s xd xs) hwf (pack_overflow h)

end Sys2Proof.Machine
end

section
/-! PROOFS. CC.INV (R181, R183): a channel is rounded from a value in [0, DENOM], so it lies in 0..DENOM
itself and fits its register. -/

namespace Sys2Proof.Machine

open Sys2Proof.Claims

/-! ### Commands that write a group of X registers -/

section XRegisterGroup

variable {i : Instr} {s : State} {reads : List RegName} {body : State → Except ErrKind State}

theorem completes_of_writeXs {xd : Reg} {vs : List Word64} {post : State → Prop}
    (hexec : exec i s = runCommand i reads body s) (hwf : i.wf = true)
    (hfits : xd.val + vs.length ≤ 32)
    (hok : body (s.noteReads reads) = .ok ((s.noteReads reads).writeXs xd vs))
    (hpost : ∀ t : State,
      (∀ (k : Nat) (hk : k < vs.length), t.readX (groupReg xd k) = vs[k]) → post t) :
    Completes i s (inGroup xd vs.length) noReg post :=
  ⟨_, by rw [hexec, runCommand_done hwf hok], registersOnly_writeXs s reads xd vs hfits,
    hpost _ fun _ hk => readX_writeXs_member (s.noteReads reads) hfits hk⟩

theorem raises_of_body_error {k : ErrKind}
    (hexec : exec i s = runCommand i reads body s) (hwf : i.wf = true)
    (herr : body (s.noteReads reads) = .error k) : Raises i s k :=
  ⟨_, by rw [hexec, runCommand_error hwf herr], noteReads_errorEntry_entered s reads k _⟩

end XRegisterGroup

/-! ### One channel (R181) -/

/-- R14's `rhaz` agrees with R181's rounding here, because a clamped channel is never negative. -/
theorem channelValue_roundsTo (q : ℚ) (D : Nat) :
    RoundsTo (min (max q 0) 1 * D) (channelValue q D) := by
  have hnonneg : 0 ≤ clamp01 q * D := mul_nonneg (clamp01_mem q).1 D.cast_nonneg
  obtain ⟨hn, hlo, hhi⟩ := rhaz_of_nonneg hnonneg
  have hcast : (channelValue q D : ℚ) = (rhaz (clamp01 q * D) : ℚ) :=
    mod_cast Int.toNat_of_nonneg hn
  rw [RoundsTo, hcast]
  exact ⟨hlo, hhi⟩

theorem roundsTo_le {q : ℚ} {n D : Nat} (h : RoundsTo q n) (hq : q ≤ D) : n ≤ D := by
  have hlt : (n : ℚ) < ((D + 1 : Nat) : ℚ) := by
    push_cast
    linarith [h.1]
  exact Nat.lt_succ_iff.1 (mod_cast hlt)

theorem channelValue_le (q : ℚ) (D : Nat) : channelValue q D ≤ D :=
  roundsTo_le (channelValue_roundsTo q D)
    (mul_le_of_le_one_left D.cast_nonneg (clamp01_mem q).2)

/-- What a destination of CC.INV holds. DENOM is itself the value of a 64-bit register, so no bit of a
channel is lost. -/
theorem channelWord_roundsTo_le {w D : Word64} {q : ℚ} (hw : w = zext64 (channelValue q D.toNat)) :
    RoundsTo (min (max q 0) 1 * D.toNat) w.toNat ∧ w.toNat ≤ D.toNat := by
  have hle := channelValue_le q D.toNat
  have hvalue : w.toNat = channelValue q D.toNat := by
    rw [hw, zext64, BitVec.toNat_ofNat, Nat.mod_eq_of_lt (hle.trans_lt D.isLt)]
  rw [hvalue]
  exact ⟨channelValue_roundsTo q D.toNat, hle⟩

/-! ### CC.INV (R183) -/

/-- The coefficients of R181 as the spec writes them. -/
theorem toRgb_eq (y pB pR : ℚ) :
    toRgb ⟨y, pB, pR⟩ =
      ⟨y + 1.402 * pR, y - 0.344136 * pB - 0.714136 * pR, y + 1.772 * pB⟩ := by
  norm_num [toRgb]

/-- The finiteness check of CC.INV is on the whole source group. -/
theorem finite_and_iff (s : State) (fs : Reg) :
    (isFinite (s.readF fs) && isFinite (s.readF (groupReg fs 1)) &&
      isFinite (s.readF (groupReg fs 2))) = true ↔
      ∀ k < 3, isFinite (s.readF (groupReg fs k)) = true := by
  simp only [Nat.forall_lt_succ_right, Bool.and_eq_true]
  simp [and_assoc]

/-- Settles O54: past the two checks each destination holds one channel, and a failed check of either
kind is the same error. -/
theorem ccInvResult : Obligations.CcInvResult := by
  intro s xd fs hxd hfs D v r g b
  have hwf : (Instr.ccInv xd fs).wf = true := by
    simp only [Instr.wf, groupFits, Bool.and_eq_true, decide_eq_true_eq]
    omega
  constructor
  · intro hD hfin
    refine completes_of_writeXs (exec_ccInv s xd fs) hwf (Nat.add_le_add_right hxd 3)
      (vs := [r, g, b].map fun q => zext64 (channelValue q D)) ?_ fun t ht => ?_
    · have hD0 : ¬s.denom.toNat = 0 := hD.ne'
      simp [uint, hD0, (finite_and_iff s fs).2 hfin, toRgb_eq, r, g, b, v, D]
    · obtain ⟨hr, hrD⟩ := channelWord_roundsTo_le (q := r) (D := s.denom) (ht 0 (by simp))
      obtain ⟨hg, hgD⟩ := channelWord_roundsTo_le (q := g) (D := s.denom) (ht 1 (by simp))
      obtain ⟨hb, hbD⟩ := channelWord_roundsTo_le (q := b) (D := s.denom) (ht 2 (by simp))
      refine ⟨hr, hg, hb, ?_⟩
      simp only [Nat.forall_lt_succ_right]
      exact ⟨⟨⟨by simp, hrD⟩, hgD⟩, hbD⟩
  · intro h
    refine raises_of_body_error (exec_ccInv s xd fs) hwf ?_
    by_cases hD : uint s.denom = 0
    · simp [hD]
    · obtain ⟨k, hk, hinf⟩ := h.resolve_left hD
      have hnot : (isFinite (s.readF fs) && isFinite (s.readF (groupReg fs 1)) &&
          isFinite (s.readF (groupReg fs 2))) = false := by
        rw [← Bool.not_eq_true, finite_and_iff]
        exact fun hfin => Bool.false_ne_true (hinf.symm.trans (hfin k hk))
      simp [hD, hnot]

end Sys2Proof.Machine
end

section
/-! PROOFS. The aborted unit (R205 to R207, R211). An aborted unit is not WAITING and, under the
invariant, holds no CW.FETCH, so each operation of the port has one lemma here: what it answers then.
The safety theorem is read off these lemmas, move by move. -/

namespace Sys2Proof.Machine

/-! ### Each operation in an unaborted or an aborted unit -/

theorem runState_of_err {s : State} (h : s.err.isSome = true) : s.runState = .aborted := by
  simp [State.runState, h]

theorem issue_of_aborted {s : State} (w : Word32) (h : s.runState = .aborted) :
    issue w s = .next (s.answer .refused) := by
  simp [issue, h]

theorem registerAccess_of_aborted {s : State} (t : State) (h : s.runState = .aborted) :
    registerAccess s t = .next t := by
  simp [registerAccess, h]

theorem wake_of_no_held {s : State} (h : s.held = none) : wake s = .next s := by
  simp [wake, h]

theorem pushIn_of_no_held {s : State} (b : Byte) (hheld : s.held = none) (hopen : s.inClosed = false)
    (hroom : s.inStream.length < 2 ^ 64 - 1) :
    pushIn b s = .next { s with inStream := s.inStream ++ [b] } := by
  rw [pushIn, if_neg (by simp [hopen]), if_neg (by omega)]
  exact wake_of_no_held hheld

theorem closeIn_of_no_held {s : State} (hheld : s.held = none) (hopen : s.inClosed = false) :
    closeIn s = .next { s with inClosed := true } := by
  rw [closeIn, if_neg (by simp [hopen])]
  exact wake_of_no_held hheld

/-- H.DRAINOUT gives one response and touches only OUT. -/
theorem drainOut_answers (s : State) :
    ∃ a rest, drainOut s = .next ({ s with outStream := rest }.answer a) := by
  unfold drainOut
  split
  next h => exact ⟨.empty, [], by rw [← h]⟩
  next b rest h => exact ⟨.outByte b, rest, rfl⟩

/-- Settles O12: the run state picks REFUSED for a word and lets the register reads through, and a push
or close wakes nothing, since the invariant has no fetch held. -/
theorem abortedUnitRefuses : Obligations.AbortedUnitRefuses := by
  intro s hinv herr
  have hrun := runState_of_err herr
  have hheld := hinv.aborted_not_waiting herr
  obtain ⟨a, rest, hdrain⟩ := drainOut_answers s
  exact ⟨fun w => issue_of_aborted w hrun, fun _ => rfl,
    fun _ => ⟨_, registerAccess_of_aborted _ hrun, rfl⟩,
    fun _ => ⟨_, registerAccess_of_aborted _ hrun, rfl⟩,
    ⟨_, a, hdrain, rfl⟩, closeIn_of_no_held hheld, fun hopen hroom b =>
    pushIn_of_no_held b hheld hopen hroom⟩

/-! ### The first error stands (R206, R207) -/

/-- ERR and FAULTCMD are unchanged. -/
def KeepsError (s t : State) : Prop := t.err = s.err ∧ t.faultCmd = s.faultCmd

theorem wake_keepsError {s t : State} (hheld : s.held = none) (h : wake s = .next t) :
    KeepsError s t := by
  rw [wake_of_no_held hheld] at h
  cases h
  exact ⟨rfl, rfl⟩

theorem pushIn_keepsError {s t : State} {b : Byte} (hheld : s.held = none)
    (h : pushIn b s = .next t) : KeepsError s t := by
  unfold pushIn at h
  split at h
  next => cases h
  next =>
    split at h
    next => cases h
    next => exact wake_keepsError (s := { s with inStream := s.inStream ++ [b] }) hheld h

theorem closeIn_keepsError {s t : State} (hheld : s.held = none) (h : closeIn s = .next t) :
    KeepsError s t := by
  unfold closeIn at h
  split at h
  next => cases h
  next => exact wake_keepsError (s := { s with inClosed := true }) hheld h

theorem issue_keepsError {s t : State} {w : Word32} (hrun : s.runState = .aborted)
    (h : issue w s = .next t) : KeepsError s t := by
  rw [issue_of_aborted w hrun] at h
  cases h
  exact ⟨rfl, rfl⟩

theorem registerAccess_eq {s t u : State} (hrun : s.runState = .aborted)
    (h : registerAccess s u = .next t) : t = u := by
  rw [registerAccess_of_aborted u hrun] at h
  cases h
  rfl

/-- Every host operation but H.RESET. -/
theorem hostMove_keepsError {s t : State} {op : HostOp} (hrun : s.runState = .aborted)
    (hheld : s.held = none) (hop : op ≠ .reset) (h : hostMove op s = .next t) : KeepsError s t := by
  cases op with
  | reset => exact absurd rfl hop
  | issue w => exact issue_keepsError hrun h
  | writeX | writeF | readX | readF =>
    obtain rfl := registerAccess_eq hrun h
    exact ⟨rfl, rfl⟩
  | readCR n =>
    cases h
    exact ⟨rfl, rfl⟩
  | pushIn b => exact pushIn_keepsError hheld h
  | closeIn => exact closeIn_keepsError hheld h
  | drainOut =>
    obtain ⟨a, rest, hdrain⟩ := drainOut_answers s
    cases hdrain.symm.trans h
    exact ⟨rfl, rfl⟩

/-- Settles O13: by the move the step makes. Every operation but H.RESET keeps the error, and taking a
word or an operation from its queue touches neither the error nor the held fetch. -/
theorem onlyResetLeavesAborted : Obligations.OnlyResetLeavesAborted := by
  intro s t hinv herr hstep
  have hrun := runState_of_err herr
  have hheld := hinv.aborted_not_waiting herr
  unfold step at hstep
  cases hmove : nextMove s with
  | accept w rest =>
    rw [hmove] at hstep
    exact .inl (issue_keepsError (s := { s with portWords := rest }) hrun hstep)
  | host op rest =>
    rw [hmove] at hstep
    by_cases hop : op = .reset
    · subst hop
      cases hstep
      exact .inr ⟨rest, rfl, rfl, rfl⟩
    · exact .inl (hostMove_keepsError (s := { s with hostOps := rest }) hrun hheld hop hstep)
  | wait =>
    rw [hmove] at hstep
    cases hstep
    exact .inl ⟨rfl, rfl⟩

end Sys2Proof.Machine
end

section
/-! PROOFS. Error entry (R203). FAULTCMD holds the encoding of the failed command, and a legal word is the
encoding of the command it decodes to (R85, R86), so FAULTCMD is the word that was run. -/

namespace Sys2Proof

/-! ### The word of a decoded command -/

theorem opcField_lt (w : Word32) : opcField w < 64 := Nat.mod_lt _ (by decide)

/-- A format R word is the encoding of its own fields. -/
theorem encodeR_eq_self {w : Word32} {opc : Nat} {rd rs : Reg} (hopc : opcField w = opc)
    (hrd : rdField w = rd) (hrs : rsField w = rs) (hreserved : wordField w 16 16 = 0) :
    encodeR opc rd rs = w := by
  subst hopc hrd hrs
  apply BitVec.eq_of_toNat_eq
  rw [encodeR_toNat _ _ _ (opcField_lt w)]
  have := w.isLt
  simp only [opcField, rdField, rsField, regField, wordField] at hreserved ⊢
  omega

/-- A format B word is the encoding of its own fields. -/
theorem encodeB_eq_self {w : Word32} {opc : Nat} {rd rs : Reg} {width lsb : Imm7}
    (hopc : opcField w = opc) (hrd : rdField w = rd) (hrs : rsField w = rs)
    (hwidth : widthField w = width) (hlsb : lsbField w = lsb) (hreserved : wordField w 30 2 = 0) :
    encodeB opc rd rs width lsb = w := by
  subst hopc hrd hrs hwidth hlsb
  apply BitVec.eq_of_toNat_eq
  rw [encodeB_toNat _ _ _ _ _ (opcField_lt w)]
  have := w.isLt
  simp only [opcField, rdField, rsField, widthField, lsbField, immField, regField, wordField]
    at hreserved ⊢
  omega

/-- R86: no bit of a legal word is dropped. By the opcode, as `decodeFields` splits it; each format hands
on its command only when the bits that are no operand are 0. -/
theorem encode_of_decode {w : Word32} {i : Instr} (h : decode w = some i) : encode i = w := by
  rw [decode, Option.filter_eq_some_iff] at h
  obtain ⟨hfields, -⟩ := h
  unfold decodeFields at hfields
  split at hfields <;> rename_i hopc
  case h_1 | h_2 => -- BF.FITSU, BF.FITSS: no LSB
    rw [formatBNoLsb_eq_some_iff] at hfields
    obtain ⟨hlsb, hreserved, rfl⟩ := hfields
    exact encodeB_eq_self hopc rfl rfl rfl (Fin.ext hlsb) hreserved
  case h_3 | h_4 | h_5 | h_6 => -- BF.GETU to BF.SETS
    rw [formatB_eq_some_iff] at hfields
    obtain ⟨hreserved, rfl⟩ := hfields
    exact encodeB_eq_self hopc rfl rfl rfl rfl hreserved
  case h_9 => -- CW.EMIT: no RD
    split at hfields
    next hrd =>
      rw [formatR_eq_some_iff] at hfields
      obtain ⟨hreserved, rfl⟩ := hfields
      exact encodeR_eq_self hopc (Fin.ext hrd) rfl hreserved
    next => cases hfields
  case h_10 => -- CW.FETCH: no RS
    split at hfields
    next hrs =>
      rw [formatR_eq_some_iff] at hfields
      obtain ⟨hreserved, rfl⟩ := hfields
      exact encodeR_eq_self hopc rfl (Fin.ext hrs) hreserved
    next => cases hfields
  case h_23 => cases hfields -- no assigned opcode
  all_goals -- format R with both registers
    rw [formatR_eq_some_iff] at hfields
    obtain ⟨hreserved, rfl⟩ := hfields
    exact encodeR_eq_self hopc rfl rfl hreserved

namespace Machine

/-! ### What a command leaves in ERR -/

theorem runWord_of_decode_some {w : Word32} {i : Instr} (s : State) (h : decode w = some i) :
    runWord w s = exec i s := by
  simp [runWord, h]

/-- A command either enters an error as R203 says or leaves ERR as it was. -/
theorem exec_entered_or_keeps_err (i : Instr) (s : State) :
    ∃ t, exec i s = .next t ∧ ((∃ k, ErrorEntered s t k (encode i)) ∨ t.err = s.err) := by
  rcases exec_cases i s with ⟨rs, k, h⟩ | ⟨t, h, hdone⟩ | ⟨xd, -, -, -, h⟩
  · exact ⟨_, h, .inl ⟨k, noteReads_errorEntry_entered s rs k (encode i)⟩⟩
  · exact ⟨t, h, .inr hdone.err⟩
  · exact ⟨_, h, .inr rfl⟩

/-- Settles O9: a word that decodes is the encoding its command enters, and an illegal word is entered as
it came. A run that enters no error leaves ERR at 0. -/
theorem errorsEnterPrecisely : Obligations.ErrorsEnterPrecisely := by
  intro s t w k hs hrun hk
  cases hdec : decode w with
  | none =>
    rw [runWord_of_decode_none s hdec] at hrun
    cases hrun
    cases hk
    exact errorEntry_entered s .illegalCommand w
  | some i =>
    rw [runWord_of_decode_some s hdec] at hrun
    obtain ⟨u, hexec, houtcome⟩ := exec_entered_or_keeps_err i s
    cases hexec.symm.trans hrun
    rcases houtcome with ⟨j, hentered⟩ | hkeeps
    · cases hentered.err.symm.trans hk
      rwa [encode_of_decode hdec] at hentered
    · rw [hkeeps, hs] at hk
      cases hk

end Machine

end Sys2Proof
end

section
/-! PROOFS. The error table (R201, R202). A command of the register frame raises exactly what its body
answers, so each row follows from its command's body on each side of its columns; the BitField commands,
CW.PACK and CC.INV have theirs from the statements already settled. -/

namespace Sys2Proof.Machine

open Sys2Proof.Claims

/-! ### A row of the table from the outcomes of its command -/

/-- The command's row of R201: what it raises, exactly when, and the word recorded. -/
def HasErrorRow (i : Instr) (s : State) : Prop :=
  ∃ t, exec i s = .next t ∧
    (t.err = some .preconditionViolation ↔ RaisesPrecondition s i) ∧
    (t.err = some .overflowError ↔ RaisesOverflow s i) ∧
    (t.err = some .truncatedStreamError ↔ RaisesTruncated s i) ∧
    t.err ≠ some .illegalCommand ∧ (t.err.isSome = true → t.faultCmd = encode i)

/-- The command `i` leaves ERR as it was. -/
def LeavesErr (i : Instr) (s : State) : Prop := ∃ t, exec i s = .next t ∧ t.err = s.err

theorem leavesErr_of_completes {i : Instr} {s : State} {xDest fDest : Reg → Prop}
    {post : State → Prop} (h : Completes i s xDest fDest post) : LeavesErr i s := by
  obtain ⟨t, hexec, hregs, -⟩ := h
  exact ⟨t, hexec, hregs.control.err⟩

/-- The port answers DONE after such a body, so the command is none that entered an error. -/
theorem leavesErr_of_body_ok {i : Instr} {s u : State} {reads : List RegName}
    {body : State → Except ErrKind State} (hexec : exec i s = runCommand i reads body s)
    (hwf : i.wf = true) (hok : body (s.noteReads reads) = .ok u) : LeavesErr i s := by
  rw [runCommand_done hwf hok] at hexec
  rcases exec_cases i s with ⟨rs, k, h⟩ | ⟨t, h, hdone⟩ | ⟨xd, -, -, -, h⟩
  · have hanswers : u.answers ++ [.done] = s.answers ++ [.error k] :=
      congrArg State.answers (Host.Outcome.next.inj (hexec.symm.trans h))
    simp at hanswers
  · exact ⟨t, h, hdone.err⟩
  · exact ⟨_, h, rfl⟩

/-- Error codes differ, so at most one column applies, and where none does no error is entered. -/
theorem columns_of_outcomes {e : Option ErrKind} {P O T : Prop}
    (hp : P → e = some .preconditionViolation) (ho : O → e = some .overflowError)
    (ht : T → e = some .truncatedStreamError) (hn : ¬P → ¬O → ¬T → e = none) :
    (e = some .preconditionViolation ↔ P) ∧ (e = some .overflowError ↔ O) ∧
      (e = some .truncatedStreamError ↔ T) ∧ e ≠ some .illegalCommand := by
  by_cases hP : P
  · obtain rfl := hp hP
    simp at ho ht
    simp [hP, ho, ht]
  · by_cases hO : O
    · obtain rfl := ho hO
      simp at ht
      simp [hP, hO, ht]
    · by_cases hT : T
      · obtain rfl := ht hT
        simp [hP, hO, hT]
      · obtain rfl := hn hP hO hT
        simp [hP, hO, hT]

section Row

variable {i : Instr} {s : State}

/-- One outcome per column, and none of them an error where no column applies. `exec` has one answer, so
the columns exclude each other. -/
theorem hasErrorRow_of_outcomes (hs : s.err = none)
    (hpre : RaisesPrecondition s i → Raises i s .preconditionViolation)
    (hovf : RaisesOverflow s i → Raises i s .overflowError)
    (htrunc : RaisesTruncated s i → Raises i s .truncatedStreamError)
    (hok : ¬RaisesPrecondition s i → ¬RaisesOverflow s i → ¬RaisesTruncated s i → LeavesErr i s) :
    HasErrorRow i s := by
  obtain ⟨t, hexec, houtcome⟩ := exec_entered_or_keeps_err i s
  have hraises {k : ErrKind} (h : Raises i s k) : t.err = some k := by
    obtain ⟨u, hu, hentered⟩ := h
    cases hexec.symm.trans hu
    exact hentered.err
  have hleaves (h : LeavesErr i s) : t.err = none := by
    obtain ⟨u, hu, herr⟩ := h
    cases hexec.symm.trans hu
    exact herr.trans hs
  have hword (h : t.err.isSome = true) : t.faultCmd = encode i := by
    rcases houtcome with ⟨k, hentered⟩ | hkeeps
    · exact hentered.faultCmd
    · simp [hkeeps, hs] at h
  obtain ⟨hp, ho, ht, hillegal⟩ := columns_of_outcomes (fun h => hraises (hpre h))
    (fun h => hraises (hovf h)) (fun h => hraises (htrunc h)) fun hp ho ht => hleaves (hok hp ho ht)
  exact ⟨t, hexec, hp, ho, ht, hillegal, hword⟩

/-- A row whose command can raise PreconditionViolation alone. -/
theorem hasErrorRow_of_precondition (hs : s.err = none) (hfetch : ∀ xd, i ≠ .cwFetch xd)
    (hovf : ¬RaisesOverflow s i)
    (hpre : RaisesPrecondition s i → Raises i s .preconditionViolation)
    (hok : ¬RaisesPrecondition s i → LeavesErr i s) : HasErrorRow i s :=
  hasErrorRow_of_outcomes hs hpre (fun h => absurd h hovf)
    (fun ⟨⟨xd, hi⟩, _⟩ => absurd hi (hfetch xd)) fun hp _ _ => hok hp

/-- As `hasErrorRow_of_precondition`, from what the command's body answers. -/
theorem hasErrorRow_of_check {reads : List RegName} {body : State → Except ErrKind State}
    (hexec : exec i s = runCommand i reads body s) (hwf : i.wf = true) (hs : s.err = none)
    (hfetch : ∀ xd, i ≠ .cwFetch xd) (hovf : ¬RaisesOverflow s i)
    (hpre : RaisesPrecondition s i → body (s.noteReads reads) = .error .preconditionViolation)
    (hok : ¬RaisesPrecondition s i → ∃ u, body (s.noteReads reads) = .ok u) : HasErrorRow i s :=
  hasErrorRow_of_precondition hs hfetch hovf (fun h => raises_of_body_error hexec hwf (hpre h))
    fun h => (hok h).elim fun _ hu => leavesErr_of_body_ok hexec hwf hu

end Row

/-! ### The checks in the words of the table -/

theorem quantizeA_not_finite {b : Word32} (h : isFinite b = false) :
    quantizeA b = .error .preconditionViolation := by
  simp [quantizeA, h]

theorem quantizeA_floor_iff (q : ℚ) : (⌊q⌋ < 0 ∨ 511 < ⌊q⌋) ↔ (q < 0 ∨ 512 ≤ q) := by
  have h512 : 511 < ⌊q⌋ ↔ 512 ≤ q := by
    rw [← Int.add_one_le_iff, Int.le_floor]
    norm_num
  rw [Int.floor_lt, h512, Int.cast_zero]

theorem quantizeA_overflow {b : Word32} (h : isFinite b = true)
    (hq : val32 b * 511 < 0 ∨ 512 ≤ val32 b * 511) : quantizeA b = .error .overflowError := by
  simp [quantizeA, h, (quantizeA_floor_iff _).2 hq]

theorem quantizeA_ok {b : Word32} (h : isFinite b = true)
    (hq : ¬(val32 b * 511 < 0 ∨ 512 ≤ val32 b * 511)) :
    quantizeA b = .ok ⌊val32 b * 511⌋.toNat := by
  rw [← quantizeA_floor_iff] at hq
  simp [quantizeA, h, hq]

theorem quantizeBCD_not_finite {b : Word32} (h : isFinite b = false) :
    quantizeBCD b = .error .preconditionViolation := by
  simp [quantizeBCD, h]

theorem quantizeBCD_ok {b : Word32} (h : isFinite b = true) : ∃ n, quantizeBCD b = .ok n := by
  simp only [quantizeBCD, h, Bool.not_true, Bool.false_eq_true, if_false]
  split
  next => exact ⟨_, rfl⟩
  next =>
    split
    next => exact ⟨_, rfl⟩
    next => exact ⟨_, rfl⟩

theorem chromaIndex_not_finite {table : Vector Word32 16} {b : Word32} (h : isFinite b = false) :
    chromaIndex table b = .error .preconditionViolation := by
  simp [chromaIndex, h]

theorem chromaIndex_ok {table : Vector Word32 16} {b : Word32} (h : isFinite b = true) :
    chromaIndex table b = .ok (chromaIndexOf table (val32 b)).val := by
  simp [chromaIndex, h]

theorem groupFinite_eq_false_iff (t : State) (base : Reg) (n : Nat) :
    groupFinite t base n = false ↔ ∃ k < n, isFinite (t.readF (groupReg base k)) = false := by
  simp [groupFinite, groupF]

theorem ofNumber_of_le {n : Nat} (h : n ≤ 4) : ∃ c, CReg.ofNumber n = some c := by
  interval_cases n <;> exact ⟨_, rfl⟩

/-! ### CW.FETCH -/

/-- On fewer than four bytes, R138 asks only whether IN is closed. -/
theorem execCwFetch_of_short {s : State} (xd : Reg) (hlen : s.inStream.length < 4) :
    execCwFetch xd s =
      if s.inClosed then .next (s.errorEntry .truncatedStreamError (encode (.cwFetch xd)))
      else .next { s with held := some xd } := by
  unfold execCwFetch
  split
  next h =>
    rw [h] at hlen
    simp only [List.length_cons] at hlen
    omega
  next => rfl

theorem exists_four_of_length : ∀ {bs : List Byte}, 4 ≤ bs.length →
    ∃ b0 b1 b2 b3 rest, bs = b0 :: b1 :: b2 :: b3 :: rest
  | b0 :: b1 :: b2 :: b3 :: rest, _ => ⟨b0, b1, b2, b3, rest, rfl⟩

/-- With four bytes the fetch completes, since deserialization never fails. -/
theorem cwFetch_leavesErr_of_long {s : State} (xd : Reg) (hlen : 4 ≤ s.inStream.length) :
    LeavesErr (.cwFetch xd) s := by
  obtain ⟨b0, b1, b2, b3, rest, hs⟩ := exists_four_of_length hlen
  rw [LeavesErr, exec_cwFetch, execCwFetch, hs]
  simp only [deserialize_eq]
  exact ⟨_, rfl, rfl⟩

theorem cwFetch_hasErrorRow {s : State} (hs : s.err = none) (xd : Reg) :
    HasErrorRow (.cwFetch xd) s := by
  refine hasErrorRow_of_outcomes hs False.elim False.elim (fun h => ?_) (fun _ _ ht => ?_)
  · obtain ⟨-, hlen, hclosed⟩ := h
    refine ⟨_, ?_, errorEntry_entered s .truncatedStreamError _⟩
    rw [exec_cwFetch, execCwFetch_of_short xd hlen, if_pos hclosed]
  · by_cases hlen : s.inStream.length < 4
    · have hopen : ¬s.inClosed = true := fun hc => ht ⟨⟨xd, rfl⟩, hlen, hc⟩
      refine ⟨{ s with held := some xd }, ?_, rfl⟩
      rw [exec_cwFetch, execCwFetch_of_short xd hlen, if_neg hopen]
    · exact cwFetch_leavesErr_of_long xd (Nat.not_lt.1 hlen)

/-! ### CC.FWD -/

/-- The luma coefficients of R180 as the spec writes them. -/
theorem toComponent_y (r g b : ℚ) :
    (toComponent ⟨r, g, b⟩).y = 0.299 * r + 0.587 * g + 0.114 * b := by
  norm_num [toComponent]

theorem exists_channel_iff (s : State) (xs : Reg) (D : Nat) :
    (∃ k < 3, D < (s.readX (groupReg xs k)).toNat) ↔
      D < (s.readX xs).toNat ∨ D < (s.readX (groupReg xs 1)).toNat ∨
        D < (s.readX (groupReg xs 2)).toNat := by
  simp only [Nat.exists_lt_succ_right]
  simp [or_assoc]

theorem ccFwd_hasErrorRow {fd xs : Reg} {s : State} (hwf : (Instr.ccFwd fd xs).wf = true)
    (hs : s.err = none) : HasErrorRow (.ccFwd fd xs) s := by
  refine hasErrorRow_of_check (exec_ccFwd s fd xs) hwf hs nofun id (fun h => ?_) (fun h => ?_)
  · simp only [RaisesPrecondition, exists_channel_iff, groupReg_zero] at h
    simp only [toComponent_y]
    split
    next => rfl
    next hD =>
      split
      next => rfl
      next hch => exact if_pos ((h.resolve_left hD).resolve_left hch)
  · simp only [RaisesPrecondition, exists_channel_iff, groupReg_zero] at h
    rw [not_or, not_or] at h
    obtain ⟨hD, hch, hy⟩ := h
    simp only [toComponent_y]
    exact ⟨_, (if_neg hD).trans ((if_neg hch).trans (if_neg hy))⟩

/-! ### The rows -/

/-- Every command's row, its columns in the order of `RaisesPrecondition` and `RaisesOverflow`. A column
the table leaves empty is `False` by definition, hence the `False.elim` and the `id` below. -/
theorem hasErrorRow {i : Instr} {s : State} (hwf : i.wf = true) (hs : s.err = none) :
    HasErrorRow i s := by
  cases i with
  | bfFitsU xd xs w =>
    obtain ⟨hok, hpre⟩ := bfFitsUResult s xd xs w
    exact hasErrorRow_of_precondition hs nofun id hpre fun h =>
      leavesErr_of_completes (hok (Nat.not_lt.1 h))
  | bfFitsS xd xs w =>
    obtain ⟨hok, hpre⟩ := bfFitsSResult s xd xs w
    exact hasErrorRow_of_precondition hs nofun id hpre fun h =>
      leavesErr_of_completes (hok (Nat.not_lt.1 h))
  | bfGetU xd xs w lsb =>
    obtain ⟨hok, hpre⟩ := bfGetUResult s xd xs w lsb
    exact hasErrorRow_of_precondition hs nofun id hpre fun h =>
      leavesErr_of_completes (hok (not_not.1 h))
  | bfGetS xd xs w lsb =>
    obtain ⟨hok, hpre⟩ := bfGetSResult s xd xs w lsb
    exact hasErrorRow_of_precondition hs nofun id hpre fun h =>
      leavesErr_of_completes (hok (not_not.1 h))
  | bfSetU xd xs w lsb =>
    obtain ⟨hok, hovf, hpre⟩ := bfSetUResult s xd xs w lsb
    refine hasErrorRow_of_outcomes hs hpre (fun ⟨hp, hfit⟩ => hovf hp hfit) nofun
      fun hp ho _ => leavesErr_of_completes (hok (not_not.1 hp) ?_)
    exact not_not.1 fun hfit => ho ⟨not_not.1 hp, hfit⟩
  | bfSetS xd xs w lsb =>
    obtain ⟨hok, hovf, hpre⟩ := bfSetSResult s xd xs w lsb
    refine hasErrorRow_of_outcomes hs hpre (fun ⟨hp, hfit⟩ => hovf hp hfit) nofun
      fun hp ho _ => leavesErr_of_completes (hok (not_not.1 hp) ?_)
    exact not_not.1 fun hfit => ho ⟨not_not.1 hp, hfit⟩
  | cwPack xd xs =>
    obtain ⟨hok, hovf⟩ := cwPackResult s xd xs (by simp [Instr.wf, groupFits] at hwf; omega)
    exact hasErrorRow_of_outcomes hs False.elim hovf nofun fun _ ho _ =>
      leavesErr_of_completes (hok (not_not.1 ho))
  | cwUnpack xd xs =>
    refine hasErrorRow_of_check (exec_cwUnpack s xd xs) hwf hs nofun id (fun h => ?_) (fun h => ?_)
    · exact if_neg fun hc => h (isCodeword_iff.1 hc)
    · exact ⟨_, (if_pos (isCodeword_iff.2 (not_not.1 h))).trans (by rw [unpack_eq]; rfl)⟩
  | cwEmit xs =>
    refine hasErrorRow_of_check (exec_cwEmit s xs) hwf hs nofun id (fun h => ?_) (fun h => ?_)
    · exact if_neg fun hc => h (isCodeword_iff.1 hc)
    · exact ⟨_, if_pos (isCodeword_iff.2 (not_not.1 h))⟩
  | cwFetch xd => exact cwFetch_hasErrorRow hs xd
  | qFA xd fs =>
    refine hasErrorRow_of_outcomes hs (fun h => ?_) (fun h => ?_) nofun fun hp ho _ => ?_
    · exact raises_of_compute_error (exec_qFA s xd fs) hwf (quantizeA_not_finite h)
    · exact raises_of_compute_error (exec_qFA s xd fs) hwf (quantizeA_overflow h.1 h.2)
    · have hfinite := Bool.eq_true_of_not_eq_false hp
      exact leavesErr_of_body_ok (exec_qFA s xd fs) hwf
        (congrArg (Except.map _) (quantizeA_ok hfinite fun hq => ho ⟨hfinite, hq⟩))
  | qFBCD xd fs =>
    refine hasErrorRow_of_check (exec_qFBCD s xd fs) hwf hs nofun id
      (fun h => congrArg (Except.map _) (quantizeBCD_not_finite h)) (fun h => ?_)
    obtain ⟨n, hn⟩ := quantizeBCD_ok (Bool.eq_true_of_not_eq_false h)
    exact ⟨_, congrArg (Except.map _) hn⟩
  | qIA fd xs =>
    exact hasErrorRow_of_check (exec_qIA s fd xs) hwf hs nofun id
      (fun h => congrArg (Except.map _) (if_pos h))
      (fun h => ⟨_, congrArg (Except.map _) (if_neg h)⟩)
  | qIBCD fd xs =>
    exact hasErrorRow_of_check (exec_qIBCD s fd xs) hwf hs nofun id
      (fun h => congrArg (Except.map _) (if_pos h))
      (fun h => ⟨_, congrArg (Except.map _) (if_neg h)⟩)
  | qCIdx xd fs =>
    exact hasErrorRow_of_check (exec_qCIdx s xd fs) hwf hs nofun id
      (fun h => congrArg (Except.map _) (chromaIndex_not_finite h)) fun h =>
        ⟨_, congrArg (Except.map _) (chromaIndex_ok (Bool.eq_true_of_not_eq_false h))⟩
  | qCVal fd xs =>
    refine hasErrorRow_of_check (exec_qCVal s fd xs) hwf hs nofun id
      (fun h => congrArg (Except.map _) (dif_neg (Nat.not_lt.2 h))) (fun h => ?_)
    exact ⟨_, congrArg (Except.map _) (dif_pos (Nat.lt_succ_of_le (Nat.not_lt.1 h)))⟩
  | dctFwd fd fs =>
    refine hasErrorRow_of_check (exec_dctFwd s fd fs) hwf hs nofun id (fun h => ?_) (fun h => ?_)
    · exact if_neg (Bool.eq_false_iff.1 ((groupFinite_eq_false_iff s fs 12).2 h))
    · exact ⟨_, if_pos (Bool.eq_true_of_not_eq_false (mt (groupFinite_eq_false_iff s fs 12).1 h))⟩
  | dctInv fd fs =>
    refine hasErrorRow_of_check (exec_dctInv s fd fs) hwf hs nofun id (fun h => ?_) (fun h => ?_)
    · exact if_neg (Bool.eq_false_iff.1 ((groupFinite_eq_false_iff s fs 6).2 h))
    · exact ⟨_, if_pos (Bool.eq_true_of_not_eq_false (mt (groupFinite_eq_false_iff s fs 6).1 h))⟩
  | ccFwd fd xs => exact ccFwd_hasErrorRow hwf hs
  | ccInv xd fs =>
    simp only [Instr.wf, groupFits, Bool.and_eq_true, decide_eq_true_eq] at hwf
    obtain ⟨hok, hpre⟩ := ccInvResult s xd fs (by omega) (by omega)
    refine hasErrorRow_of_precondition hs nofun id hpre fun h => ?_
    simp only [RaisesPrecondition, not_or, not_exists, not_and, Bool.not_eq_false] at h
    obtain ⟨hD, hfinite⟩ := h
    exact leavesErr_of_completes (hok (Nat.pos_of_ne_zero hD) hfinite)
  | crRd xd crn =>
    obtain ⟨c, hc⟩ := ofNumber_of_le (n := crn.val) (by simpa [Instr.wf] using hwf)
    refine hasErrorRow_of_check (exec_crRd s xd crn) hwf hs nofun id False.elim fun _ => ?_
    exact ⟨_, by rw [hc]⟩
  | crWr crn xs =>
    exact hasErrorRow_of_check (exec_crWr s crn xs) hwf hs nofun id False.elim fun _ => ⟨_, rfl⟩

/-- Settles O10: the rows of all commands, and the entry of an illegal word. -/
theorem errorTable : Obligations.ErrorTable :=
  ⟨fun _ _ hwf hs => hasErrorRow hwf hs, fun w s hdec _ =>
    ⟨s.errorEntry .illegalCommand w, runWord_of_decode_none s hdec, rfl, rfl⟩⟩

end Sys2Proof.Machine
end

section
/-! PROOFS. Encoding and decoding as inverses (R86, R90, R91). Every field of an encoded word reads back,
so the decoder finds the opcode, finds its reserved bits 0, and hands on the operands it was given. -/

namespace Sys2Proof

/-! ### What a format hands on of a word it encodes -/

@[simp] theorem opcField_encodeR {opc : Nat} (rd rs : Reg) (h : opc < 64) :
    opcField (encodeR opc rd rs) = opc := (fields_encodeR opc rd rs h).1

@[simp] theorem rdField_encodeR {opc : Nat} (rd rs : Reg) (h : opc < 64) :
    rdField (encodeR opc rd rs) = rd := (fields_encodeR opc rd rs h).2.1

@[simp] theorem rsField_encodeR {opc : Nat} (rd rs : Reg) (h : opc < 64) :
    rsField (encodeR opc rd rs) = rs := (fields_encodeR opc rd rs h).2.2.1

@[simp] theorem formatR_encodeR {opc : Nat} (rd rs : Reg) (i : Instr) (h : opc < 64) :
    formatR (encodeR opc rd rs) i = some i :=
  (formatR_eq_some_iff _ i i).2 ⟨(fields_encodeR opc rd rs h).2.2.2, rfl⟩

@[simp] theorem opcField_encodeB {opc : Nat} (rd rs : Reg) (width lsb : Imm7) (h : opc < 64) :
    opcField (encodeB opc rd rs width lsb) = opc := (fields_encodeB opc rd rs width lsb h).1

/-- The four operand fields of a format B word. -/
theorem operands_encodeB {opc : Nat} (rd rs : Reg) (width lsb : Imm7) (h : opc < 64) :
    rdField (encodeB opc rd rs width lsb) = rd ∧ rsField (encodeB opc rd rs width lsb) = rs ∧
      widthField (encodeB opc rd rs width lsb) = width ∧
      lsbField (encodeB opc rd rs width lsb) = lsb := by
  obtain ⟨-, hrd, hrs, hwidth, hlsb, -⟩ := fields_encodeB opc rd rs width lsb h
  exact ⟨hrd, hrs, hwidth, hlsb⟩

@[simp] theorem formatB_encodeB {opc : Nat} (rd rs : Reg) (width lsb : Imm7) (i : Instr)
    (h : opc < 64) : formatB (encodeB opc rd rs width lsb) i = some i := by
  obtain ⟨-, -, -, -, -, hreserved⟩ := fields_encodeB opc rd rs width lsb h
  exact (formatB_eq_some_iff _ i i).2 ⟨hreserved, rfl⟩

@[simp] theorem formatBNoLsb_encodeB {opc : Nat} (rd rs : Reg) (width : Imm7) (i : Instr)
    (h : opc < 64) : formatBNoLsb (encodeB opc rd rs width 0) i = some i := by
  obtain ⟨-, -, -, hlsb⟩ := operands_encodeB rd rs width 0 h
  simp [formatBNoLsb, hlsb, h]

/-! ### The command of an encoded word -/

/-- By the command: its opcode selects its own row of `decodeFields`. -/
theorem decodeFields_encode (i : Instr) : decodeFields (encode i) = some i := by
  cases i with
  | bfFitsU xd xs width | bfFitsS xd xs width =>
    simp [encode, Instr.opcode, decodeFields, operands_encodeB]
  | bfGetU xd xs width lsb | bfGetS xd xs width lsb | bfSetU xd xs width lsb
  | bfSetS xd xs width lsb =>
    simp [encode, Instr.opcode, decodeFields, operands_encodeB]
  | cwPack rd rs | cwUnpack rd rs | qFA rd rs | qFBCD rd rs | qIA rd rs | qIBCD rd rs | qCIdx rd rs
  | qCVal rd rs | dctFwd rd rs | dctInv rd rs | ccFwd rd rs | ccInv rd rs | crRd rd rs
  | crWr rd rs =>
    simp [encode, Instr.opcode, decodeFields]
  | cwEmit xs | cwFetch xd => simp [encode, Instr.opcode, decodeFields]

/-- Settles O1: the fields spell the command, and the checks on operand values are its well-formedness. -/
theorem decodeOfEncode : Obligations.DecodeOfEncode := by
  intro i hwf
  rw [decode, decodeFields_encode, Option.filter_some, if_pos hwf]

/-- Settles O2: the decoder's last check is well-formedness, and no bit of the word is dropped. -/
theorem encodeOfDecode : Obligations.EncodeOfDecode := by
  intro w i h
  have hwf : i.wf = true := by
    rw [decode, Option.filter_eq_some_iff] at h
    exact h.2
  exact ⟨hwf, encode_of_decode h⟩

/-- Settles O4: each word is decoded by evaluation. -/
theorem writtenWordsDecode : Obligations.WrittenWordsDecode := by
  unfold Obligations.WrittenWordsDecode
  decide

end Sys2Proof
end

section
/-! PROOFS. The invariant of the unit under reset, commands and host moves (R43, R138, R203, R230,
R237). A command runs only with no error entered. A push or a close may leave a held CW.FETCH with four bytes
or a closed stream, and the wake in the same step restores the invariant, so the wake is proved from a
weaker condition. -/

namespace Sys2Proof.Machine

/-! ### What the invariant depends on -/

/-- The invariant speaks of six fields alone. -/
theorem State.Inv.of_same_fields {s t : State} (h : s.Inv) (err : t.err = s.err := by rfl)
    (held : t.held = s.held := by rfl) (faultCmd : t.faultCmd = s.faultCmd := by rfl)
    (inStream : t.inStream = s.inStream := by rfl) (inClosed : t.inClosed = s.inClosed := by rfl)
    (config : t.config = s.config := by rfl) : t.Inv where
  aborted_not_waiting := by rw [err, held]; exact h.aborted_not_waiting
  no_error_no_faultCmd := by rw [err, faultCmd]; exact h.no_error_no_faultCmd
  held_is_short := by rw [held, inStream, inClosed]; exact h.held_is_short
  inCount_fits := by rw [inStream]; exact h.inCount_fits
  table_finite := by rw [config]; exact h.table_finite

/-- The invariant but for the clause on a held CW.FETCH. -/
structure State.InvBeforeWake (s : State) : Prop where
  aborted_not_waiting : s.err.isSome → s.held = none
  no_error_no_faultCmd : s.err = none → s.faultCmd = 0#32
  inCount_fits : s.inStream.length < 2 ^ 64
  table_finite : chromaTableFinite s.config = true

theorem State.Inv.beforeWake {s : State} (h : s.Inv) : s.InvBeforeWake :=
  ⟨h.aborted_not_waiting, h.no_error_no_faultCmd, h.inCount_fits, h.table_finite⟩

/-- With no fetch held, the clause left out is vacuous. -/
theorem State.InvBeforeWake.inv {s : State} (h : s.InvBeforeWake) (hheld : s.held = none) : s.Inv where
  aborted_not_waiting := h.aborted_not_waiting
  no_error_no_faultCmd := h.no_error_no_faultCmd
  held_is_short := by simp [hheld]
  inCount_fits := h.inCount_fits
  table_finite := h.table_finite

theorem State.InvBeforeWake.err_of_held {s : State} {xd : Reg} (h : s.InvBeforeWake)
    (hheld : s.held = some xd) : s.err = none := by
  cases herr : s.err with
  | none => rfl
  | some k => simpa [hheld] using h.aborted_not_waiting (by simp [herr])

/-! ### Reset -/

theorem State.inv_hostReset {s : State} (htable : chromaTableFinite s.config = true) :
    s.hostReset.Inv where
  aborted_not_waiting := by simp
  no_error_no_faultCmd := by simp
  held_is_short := by simp
  inCount_fits := by simp
  table_finite := by simpa using htable

/-- Settles O6: reset leaves no error and no fetch, and keeps the table, whose default entries are
finite. -/
theorem resetHasInv : Obligations.ResetHasInv :=
  ⟨State.inv_hostReset (s := State.reset) (by decide), fun _ h => State.inv_hostReset h.table_finite⟩

/-! ### Commands -/

theorem State.InvBeforeWake.errorEntry {s : State} (h : s.InvBeforeWake) (k : ErrKind) (w : Word32) :
    (s.errorEntry k w).Inv where
  aborted_not_waiting := by simp
  no_error_no_faultCmd := by simp
  held_is_short := by simp
  inCount_fits := by simpa using h.inCount_fits
  table_finite := by simpa using h.table_finite

theorem State.InvBeforeWake.hold {s : State} {xd : Reg} (h : s.InvBeforeWake) (herr : s.err = none)
    (hlen : s.inStream.length < 4) (hopen : s.inClosed = false) :
    State.Inv { s with held := some xd } where
  aborted_not_waiting := by simp [herr]
  no_error_no_faultCmd := h.no_error_no_faultCmd
  held_is_short := fun _ => ⟨hlen, hopen⟩
  inCount_fits := h.inCount_fits
  table_finite := h.table_finite

theorem execCwFetch_inv {s t : State} {xd : Reg} (h : s.InvBeforeWake) (herr : s.err = none)
    (ht : execCwFetch xd s = .next t) : t.Inv := by
  rcases execCwFetch_cases xd s with
    ⟨b0, b1, b2, b3, rest, cw, hs, -, hdone⟩ | ⟨k, hentered⟩ | ⟨hlen, hopen, hwaits⟩
  · cases hdone.symm.trans ht
    refine State.InvBeforeWake.inv ⟨fun _ => rfl, h.no_error_no_faultCmd, ?_, h.table_finite⟩ rfl
    have hfits := h.inCount_fits
    rw [hs] at hfits
    simp only [List.length_cons] at hfits
    change rest.length < 2 ^ 64
    omega
  · cases hentered.symm.trans ht
    exact h.errorEntry k _
  · cases hwaits.symm.trans ht
    exact h.hold herr hlen hopen

theorem Completed.inv {i : Instr} {s t : State} (h : Completed i s t) (hinv : s.Inv)
    (hfetch : ∀ xd, i ≠ .cwFetch xd) : t.Inv := by
  rcases h.input with ⟨hin, hheld⟩ | ⟨xd, -, -, -, -, hi, -⟩
  · exact hinv.of_same_fields h.err hheld h.faultCmd hin h.inClosed h.config
  · exact absurd hi (hfetch xd)

/-- Every command keeps the invariant from a state with no error entered. -/
theorem exec_inv {i : Instr} {s t : State} (h : s.Inv) (herr : s.err = none)
    (ht : exec i s = .next t) : t.Inv := by
  by_cases hfetch : ∃ xd, i = .cwFetch xd
  · obtain ⟨xd, rfl⟩ := hfetch
    exact execCwFetch_inv h.beforeWake herr ht
  · rcases exec_cases i s with ⟨rs, k, hentered⟩ | ⟨u, hdone, hcompleted⟩ | ⟨xd, hi, -⟩
    · cases hentered.symm.trans ht
      exact (h.of_same_fields (t := s.noteReads rs)).beforeWake.errorEntry k (encode i)
    · cases hdone.symm.trans ht
      exact hcompleted.inv h fun xd hi => hfetch ⟨xd, hi⟩
    · exact absurd ⟨xd, hi⟩ hfetch

/-! ### Host moves -/

theorem runWord_inv {s t : State} {w : Word32} (h : s.Inv) (herr : s.err = none)
    (ht : runWord w s = .next t) : t.Inv := by
  cases hdec : decode w with
  | none =>
    cases (runWord_of_decode_none s hdec).symm.trans ht
    exact h.beforeWake.errorEntry _ w
  | some i => exact exec_inv h herr ((runWord_of_decode_some s hdec).symm.trans ht)

theorem err_of_idle {s : State} (h : s.runState = .idle) : s.err = none := by
  cases herr : s.err with
  | none => rfl
  | some k => simp [State.runState, herr] at h

theorem issue_of_waiting {s : State} (w : Word32) (h : s.runState = .waiting) :
    issue w s = .next { s with portWords := s.portWords ++ [w] } := by
  simp [issue, h]

theorem issue_inv {s t : State} {w : Word32} (h : s.Inv) (ht : issue w s = .next t) : t.Inv := by
  cases hrun : s.runState with
  | idle => exact runWord_inv h (err_of_idle hrun) ((issue_of_idle w hrun).symm.trans ht)
  | waiting =>
    cases (issue_of_waiting w hrun).symm.trans ht
    exact h.of_same_fields
  | aborted =>
    cases (issue_of_aborted w hrun).symm.trans ht
    exact h.of_same_fields

theorem wake_inv {s t : State} (h : s.InvBeforeWake) (ht : wake s = .next t) : t.Inv := by
  cases hheld : s.held with
  | none =>
    cases (wake_of_no_held hheld).symm.trans ht
    exact h.inv hheld
  | some xd =>
    simp only [wake, hheld] at ht
    exact execCwFetch_inv h (h.err_of_held hheld) ht

theorem pushIn_inv {s t : State} {b : Byte} (h : s.Inv) (ht : pushIn b s = .next t) : t.Inv := by
  unfold pushIn at ht
  split at ht
  next => cases ht
  next =>
    split at ht
    next => cases ht
    next hroom =>
      refine wake_inv (s := { s with inStream := s.inStream ++ [b] })
        ⟨h.aborted_not_waiting, h.no_error_no_faultCmd, ?_, h.table_finite⟩ ht
      simp only [List.length_append, List.length_singleton]
      omega

theorem closeIn_inv {s t : State} (h : s.Inv) (ht : closeIn s = .next t) : t.Inv := by
  unfold closeIn at ht
  split at ht
  next => cases ht
  next =>
    exact wake_inv (s := { s with inClosed := true }) ⟨h.aborted_not_waiting,
      h.no_error_no_faultCmd, h.inCount_fits, h.table_finite⟩ ht

/-- A register access has its effect or no next state. -/
theorem eq_of_registerAccess {s t u : State} (h : registerAccess s u = .next t) : t = u := by
  unfold registerAccess at h
  split at h
  next => cases h
  next => exact (Host.Outcome.next.inj h).symm

theorem hostMove_inv {s t : State} {op : HostOp} (h : s.Inv) (ht : hostMove op s = .next t) :
    t.Inv := by
  cases op with
  | reset =>
    cases ht
    exact State.inv_hostReset h.table_finite
  | issue w => exact issue_inv h ht
  | writeX | writeF | readX | readF =>
    obtain rfl := eq_of_registerAccess ht
    exact h.of_same_fields
  | readCR n =>
    cases ht
    exact h.of_same_fields
  | pushIn b => exact pushIn_inv h ht
  | closeIn => exact closeIn_inv h ht
  | drainOut =>
    obtain ⟨a, rest, hdrain⟩ := drainOut_answers s
    cases hdrain.symm.trans ht
    exact h.of_same_fields

/-- Settles O7: by the move the step makes. Taking a word or an operation from its queue keeps the
invariant, which the issue or the host's operation keeps in turn. -/
theorem stepKeepsInv : Obligations.StepKeepsInv := by
  intro s t h hstep
  unfold step at hstep
  cases hmove : nextMove s with
  | accept w rest =>
    rw [hmove] at hstep
    exact issue_inv (s := { s with portWords := rest }) h.of_same_fields hstep
  | host op rest =>
    rw [hmove] at hstep
    exact hostMove_inv (s := { s with hostOps := rest }) h.of_same_fields hstep
  | wait =>
    rw [hmove] at hstep
    cases hstep
    exact h

end Sys2Proof.Machine
end

section
/-! PROOFS. What every command does beyond its own result: its one answer (R218), the unwritten reads it
records (R34), and the state that one command alone may touch (R37, R42, R60, R67). -/

namespace Sys2Proof.Machine

open Sys2Proof.Claims

/-- Settles O11: the three outcomes of `exec_cases`, seen from the answers and ERR. -/
theorem commandOutcomes : Obligations.CommandOutcomes := by
  intro i s
  rcases exec_cases i s with ⟨rs, k, h⟩ | ⟨t, h, hdone⟩ | ⟨xd, hi, -, -, h⟩
  · exact ⟨_, h, .inr (.inl ⟨k, rfl, rfl, rfl⟩)⟩
  · exact ⟨t, h, .inl ⟨hdone.answers, hdone.err⟩⟩
  · exact ⟨_, h, .inr (.inr ⟨rfl, rfl, xd, hi, rfl⟩)⟩

/-- Settles O19: an error and a held fetch touch none of this, and a completed command only its own. -/
theorem onlyTheirCommandTouchesThem : Obligations.OnlyTheirCommandTouchesThem := by
  intro i s t ht
  rcases exec_cases i s with ⟨rs, k, h⟩ | ⟨u, h, hdone⟩ | ⟨xd, -, -, -, h⟩
  · cases h.symm.trans ht
    exact ⟨.inl rfl, .inl rfl, .inl ⟨rfl, rfl⟩, .inr ⟨k, rfl, rfl⟩, rfl, rfl, rfl, rfl⟩
  · cases h.symm.trans ht
    refine ⟨hdone.denom, ?_, hdone.output, .inl hdone.faultCmd, hdone.config, hdone.inClosed,
      hdone.portWords, hdone.hostOps⟩
    rcases hdone.input with ⟨hin, -⟩ | ⟨xd, b0, b1, b2, b3, hi, hin, -⟩
    · exact .inl hin
    · exact .inr ⟨xd, b0, b1, b2, b3, hi, hin⟩
  · cases h.symm.trans ht
    exact ⟨.inl rfl, .inl rfl, .inl ⟨rfl, rfl⟩, .inl rfl, rfl, rfl, rfl, rfl⟩

/-! ### Unwritten reads -/

@[simp] theorem writeXs_faults (s : State) (base : Reg) (vs : List Word64) :
    (s.writeXs base vs).faults = s.faults := by
  rw [writeXs_frame]

@[simp] theorem writeFs_faults (s : State) (base : Reg) (bs : List Word32) :
    (s.writeFs base bs).faults = s.faults := by
  rw [writeFs_frame]

/-- The state after `i` holds the faults of `s` and those of the registers `reads`, which a well-formed
command reads before its checks. -/
def RecordsReads (i : Instr) (s : State) (reads : List RegName) : Prop :=
  ∃ t, exec i s = .next t ∧
    t.faults = if i.wf then s.faults ++ (reads.filter fun r => !s.written r).map .unwrittenRead
      else s.faults

/-- The reads of a command are recorded by its frame, so its body need only add none. -/
theorem recordsReads_of_body {i : Instr} {s : State} {reads : List RegName}
    {body : State → Except ErrKind State} (hexec : exec i s = runCommand i reads body s)
    (hbody : ∀ t u, body t = .ok u → u.faults = t.faults) : RecordsReads i s reads := by
  rcases runCommand_cases hexec.symm with ⟨hwf, h⟩ | ⟨k, hwf, -, h⟩ | ⟨t, hwf, ht, h⟩
  · exact ⟨_, h, by simp [hwf]⟩
  · exact ⟨_, h, by simp [hwf]⟩
  · exact ⟨_, h, by simp [hwf, hbody _ t ht]⟩

/-- As `recordsReads_of_body`, for a command that computes a value and writes it. -/
theorem recordsReads_of_map {α : Type} {i : Instr} {s : State} {reads : List RegName}
    {compute : State → Except ErrKind α} {write : State → α → State}
    (hexec : exec i s = runCommand i reads (fun t => (compute t).map (write t)) s)
    (hwrite : ∀ t a, (write t a).faults = t.faults) : RecordsReads i s reads := by
  refine recordsReads_of_body hexec fun t u h => ?_
  obtain ⟨a, -, rfl⟩ := except_map_ok h
  exact hwrite t a

theorem recordsReads_sources (i : Instr) (s : State) : RecordsReads i s (sources i) := by
  cases i with
  | bfFitsU xd xs w => exact recordsReads_of_map (exec_bfFitsU s xd xs w) fun _ _ => rfl
  | bfFitsS xd xs w => exact recordsReads_of_map (exec_bfFitsS s xd xs w) fun _ _ => rfl
  | bfGetU xd xs w lsb => exact recordsReads_of_map (exec_bfGetU s xd xs w lsb) fun _ _ => rfl
  | bfGetS xd xs w lsb => exact recordsReads_of_map (exec_bfGetS s xd xs w lsb) fun _ _ => rfl
  | bfSetU xd xs w lsb => exact recordsReads_of_map (exec_bfSetU s xd xs w lsb) fun _ _ => rfl
  | bfSetS xd xs w lsb => exact recordsReads_of_map (exec_bfSetS s xd xs w lsb) fun _ _ => rfl
  | cwPack xd xs => exact recordsReads_of_map (exec_cwPack s xd xs) fun _ _ => rfl
  | qFA xd fs => exact recordsReads_of_map (exec_qFA s xd fs) fun _ _ => rfl
  | qFBCD xd fs => exact recordsReads_of_map (exec_qFBCD s xd fs) fun _ _ => rfl
  | qIA fd xs => exact recordsReads_of_map (exec_qIA s fd xs) fun _ _ => rfl
  | qIBCD fd xs => exact recordsReads_of_map (exec_qIBCD s fd xs) fun _ _ => rfl
  | qCIdx xd fs => exact recordsReads_of_map (exec_qCIdx s xd fs) fun _ _ => rfl
  | qCVal fd xs => exact recordsReads_of_map (exec_qCVal s fd xs) fun _ _ => rfl
  | cwUnpack xd xs =>
    refine recordsReads_of_body (exec_cwUnpack s xd xs) fun t u h => ?_
    split at h
    next =>
      obtain ⟨k, -, rfl⟩ := except_map_ok h
      exact writeXs_faults t xd (blockWords k)
    next => cases h
  | cwEmit xs =>
    refine recordsReads_of_body (exec_cwEmit s xs) fun t u h => ?_
    split at h
    next => cases h; rfl
    next => cases h
  | cwFetch xd =>
    rcases execCwFetch_cases xd s with ⟨_, _, _, _, _, _, -, -, h⟩ | ⟨k, h⟩ | ⟨-, -, h⟩
    · exact ⟨_, h, by simp [Instr.wf, sources]⟩
    · exact ⟨_, h, by simp [Instr.wf, sources]⟩
    · exact ⟨_, h, by simp [Instr.wf, sources]⟩
  | dctFwd fd fs =>
    refine recordsReads_of_body (exec_dctFwd s fd fs) fun t u h => ?_
    split at h
    next => cases h; simp
    next => cases h
  | dctInv fd fs =>
    refine recordsReads_of_body (exec_dctInv s fd fs) fun t u h => ?_
    split at h
    next => cases h; simp
    next => cases h
  | ccFwd fd xs =>
    refine recordsReads_of_body (exec_ccFwd s fd xs) fun t u h => ?_
    simp only at h
    split at h
    next => cases h
    next =>
      split at h
      next => cases h
      next =>
        split at h
        next => cases h
        next => cases h; simp
  | ccInv xd fs =>
    refine recordsReads_of_body (exec_ccInv s xd fs) fun t u h => ?_
    simp only at h
    split at h
    next => cases h
    next =>
      split at h
      next => cases h
      next => cases h; simp
  | crRd xd crn =>
    refine recordsReads_of_body (exec_crRd s xd crn) fun t u h => ?_
    split at h
    next => cases h; rfl
    next => cases h
  | crWr crn xs =>
    exact recordsReads_of_body (exec_crWr s crn xs) fun t u h => by cases h; rfl

/-- Settles O18: the registers a command's frame reads are its sources. -/
theorem unwrittenReadsAreRecorded : Obligations.UnwrittenReadsAreRecorded :=
  fun i s => recordsReads_sources i s

end Sys2Proof.Machine
end

section
/-! PROOFS. The host port (R211): which move a step makes, and what each operation of the host answers and
changes. -/

namespace Sys2Proof.Machine

/-! ### The move of a step -/

theorem nextMove_of_word {s : State} {w : Word32} {ws : List Word32} (hrun : s.runState ≠ .waiting)
    (hport : s.portWords = w :: ws) : nextMove s = .accept w ws := by
  cases h : s.runState with
  | waiting => exact absurd h hrun
  | idle | aborted => simp [nextMove, h, hport]

theorem nextMove_of_no_word {s : State} {op : HostOp} {ops : List HostOp}
    (hport : s.portWords = []) (hops : s.hostOps = op :: ops) : nextMove s = .host op ops := by
  cases h : s.runState with
  | idle | waiting | aborted => simp [nextMove, h, hport, hops]

theorem nextMove_of_waiting_no_op {s : State} (hrun : s.runState = .waiting)
    (hops : s.hostOps = []) : nextMove s = .wait := by
  simp [nextMove, hrun, hops]

theorem step_of_word {s : State} {w : Word32} {ws : List Word32} (hrun : s.runState ≠ .waiting)
    (hport : s.portWords = w :: ws) : step s = issue w { s with portWords := ws } := by
  rw [step, nextMove_of_word hrun hport]
  rfl

theorem issue_of_idle_of_decode {s : State} {w : Word32} {i : Instr} (hrun : s.runState = .idle)
    (hdec : decode w = some i) : issue w s = exec i s := by
  rw [issue_of_idle w hrun, runWord_of_decode_some s hdec]

theorem step_of_word_of_idle {s : State} {w : Word32} {ws : List Word32} {i : Instr}
    (hrun : s.runState = .idle) (hdec : decode w = some i) (hport : s.portWords = w :: ws) :
    step s = exec i { s with portWords := ws } := by
  rw [step_of_word (by simp [hrun]) hport]
  exact issue_of_idle_of_decode (s := { s with portWords := ws }) hrun hdec

theorem withFetchWord_toNat (s : State) (w : Word32) :
    s.withFetchWord 32 w.toNat = presentWord s w := by
  rw [State.withFetchWord, Nat.mod_eq_of_lt w.isLt, BitVec.ofNat_toNat, BitVec.setWidth_eq]

/-- Settles O5: an IDLE unit takes the held word, or else the host's, and a presented word is a held
one. -/
theorem stepRunsTheDecodedCommand : Obligations.StepRunsTheDecodedCommand := by
  intro s w i hrun hdec
  refine ⟨fun ws hport => step_of_word_of_idle hrun hdec hport, fun ops hport hops => ?_, ?_⟩
  · rw [step, nextMove_of_no_word hport hops]
    exact issue_of_idle_of_decode (s := { s with hostOps := ops }) hrun hdec
  · rw [withFetchWord_toNat]
    exact step_of_word_of_idle (s := presentWord s w) hrun hdec rfl

/-- Settles O14: a WAITING unit leaves the word at the port, and any other takes the oldest one. -/
theorem waitingPortHoldsWords : Obligations.WaitingPortHoldsWords :=
  ⟨fun _ w hrun => issue_of_waiting w hrun, fun _ _ _ hrun hport => step_of_word hrun hport⟩

/-! ### Register access -/

theorem registerAccess_of_waiting {s : State} (t : State) (h : s.runState = .waiting) :
    registerAccess s t = .refused .registerAccessWhileWaiting := by
  simp [registerAccess, h]

theorem registerAccess_of_not_waiting {s : State} (t : State) (h : s.runState ≠ .waiting) :
    registerAccess s t = .next t := by
  cases hrun : s.runState with
  | waiting => exact absurd hrun h
  | idle | aborted => simp [registerAccess, hrun]

/-- Settles O15: the run state refuses a register access, and the closed flag a push and a close. -/
theorem forbiddenHostMovesAreRefused : Obligations.ForbiddenHostMovesAreRefused := by
  intro s
  refine ⟨fun hrun i v b => ?_, fun hclosed => ⟨if_pos hclosed, fun byte => if_pos hclosed⟩⟩
  exact ⟨registerAccess_of_waiting _ hrun, registerAccess_of_waiting _ hrun,
    registerAccess_of_waiting _ hrun, registerAccess_of_waiting _ hrun⟩

/-- Settles O16: the access goes through, and a register write has the frame of its own lemmas. -/
theorem hostWritesOneRegister : Obligations.HostWritesOneRegister := by
  intro s hrun i v b
  constructor
  · exact ⟨s.writeX i v, registerAccess_of_not_waiting _ hrun, s.readX_writeX_same i v,
      by simp [State.written_writeX], fun q hq => s.readX_writeX_other v hq, fun _ _ => rfl, rfl,
      ⟨rfl, rfl, rfl, rfl, rfl⟩, ⟨rfl, rfl, rfl, rfl, rfl, rfl, rfl⟩, rfl⟩
  · exact ⟨s.writeF i b, registerAccess_of_not_waiting _ hrun, s.readF_writeF_same i b,
      by simp [State.written_writeF], fun _ _ => rfl, fun q hq => s.readF_writeF_other b hq, rfl,
      ⟨rfl, rfl, rfl, rfl, rfl⟩, ⟨rfl, rfl, rfl, rfl, rfl, rfl, rfl⟩, rfl⟩

/-- The record of one read. -/
theorem noteReads_singleton (s : State) (q : RegName) :
    s.noteReads [q] =
      { s with faults := s.faults ++ if s.written q then [] else [.unwrittenRead q] } := by
  cases h : s.written q with
  | true => simp [State.noteReads, h]
  | false => simp [State.noteReads, h]

/-- Settles O57: the access goes through, with the record of one read, and a control register is read in
every run state. -/
theorem hostReadsAnswerTheRegister : Obligations.HostReadsAnswerTheRegister := by
  intro s
  refine ⟨fun hrun i => ⟨?_, ?_⟩, ?_⟩
  · refine (registerAccess_of_not_waiting _ hrun).trans ?_
    rw [noteReads_singleton]
    rfl
  · refine (registerAccess_of_not_waiting _ hrun).trans ?_
    rw [noteReads_singleton]
    rfl
  · rintro n v rfl
    cases n with
    | status | denom | inCount | outCount | faultCmd => rfl

/-! ### STATUS (R38) -/

/-- The three fields of STATUS do not overlap, and nothing stands above them. -/
theorem statusWord_fields : ∀ code ≤ 4, ∀ waiting closed : Bool,
    let v := BitVec.ofNat 64 (code + 8 * waiting.toNat + 16 * closed.toNat)
    (v.extractLsb' 0 3).toNat = code ∧ v.getLsbD 3 = waiting ∧ v.getLsbD 4 = closed ∧
      v.extractLsb' 5 59 = 0#59 := by
  decide

theorem errCode_eq (e : Option ErrKind) : errCode e ≤ 4 ∧ errCode e = match e with
    | none => 0
    | some .preconditionViolation => 1
    | some .overflowError => 2
    | some .truncatedStreamError => 3
    | some .illegalCommand => 4 := by
  cases e with
  | none => decide
  | some k => cases k <;> decide

/-- Settles O17: the fields of the status word, at the code of the error. -/
theorem statusFields : Obligations.StatusFields := by
  intro s
  obtain ⟨hle, hcode⟩ := errCode_eq s.err
  obtain ⟨herr, hrest⟩ := statusWord_fields _ hle s.held.isSome s.inClosed
  exact ⟨herr.trans hcode, hrest⟩

/-! ### Streams (R61, R62) -/

/-- Settles O20: with no fetch held, a push or a close wakes nothing. -/
theorem pushAndCloseFeedIn : Obligations.PushAndCloseFeedIn := by
  intro s hheld hopen hroom
  refine ⟨fun byte => ⟨_, pushIn_of_no_held byte hheld hopen hroom, rfl, ?_⟩,
    _, closeIn_of_no_held hheld hopen, rfl, (statusFields _).2.2.1⟩
  simp only [State.inCount, BitVec.toNat_ofNat, List.length_append, List.length_singleton]
  rw [Nat.mod_eq_of_lt (by omega), Nat.mod_eq_of_lt (by omega)]

theorem drainOut_of_nil {s : State} (h : s.outStream = []) :
    drainOut s = .next (s.answer .empty) := by
  simp [drainOut, h]

theorem drainOut_of_cons {s : State} {b : Byte} {rest : List Byte} (h : s.outStream = b :: rest) :
    drainOut s = .next ({ s with outStream := rest }.answer (.outByte b)) := by
  simp [drainOut, h]

/-- Settles O21: by the oldest byte of OUT. -/
theorem drainTakesTheOldestByte : Obligations.DrainTakesTheOldestByte :=
  fun _ => ⟨fun _ _ h => drainOut_of_cons h, fun h => drainOut_of_nil h⟩

end Sys2Proof.Machine
end

section
/-! PROOFS. Reading and inserting a field as inverses (R107, R108): an insertion is a change of the bits
under the field's mask alone. -/

namespace Sys2Proof.Machine

/-! ### Which insertions succeed -/

theorem fitsU_eq_ok_true_iff {v w : Nat} (hw : w ≤ 64) :
    fitsU v w = .ok true ↔ 1 ≤ w ∧ v < 2 ^ w := by
  simp [fitsU_eq v hw, Nat.one_le_iff_ne_zero, Nat.pos_iff_ne_zero]

theorem fitsS_eq_ok_true_iff {v : Int} {w : Nat} (hw : w ≤ 64) :
    fitsS v w = .ok true ↔ 1 ≤ w ∧ -2 ^ (w - 1) ≤ v ∧ v ≤ 2 ^ (w - 1) - 1 := by
  simp [fitsS_eq v hw, Nat.one_le_iff_ne_zero, Nat.pos_iff_ne_zero]

theorem setU_eq_ok_iff {word word' : Word64} {w lsb v : Nat} :
    setU word w lsb v = .ok word' ↔
      w + lsb ≤ 64 ∧ 0 < w ∧ v < 2 ^ w ∧ insertField word w lsb v = word' := by
  by_cases h : w + lsb ≤ 64
  · by_cases hfit : 0 < w ∧ v < 2 ^ w
    · simp [setU_eq h hfit.1 hfit.2, h, hfit]
    · simp only [setU_overflow h hfit, reduceCtorEq, false_iff]
      exact fun ⟨_, hpos, hlt, _⟩ => hfit ⟨hpos, hlt⟩
  · simp [setU_error h, h]

theorem setS_eq_ok_iff {word word' : Word64} {w lsb : Nat} {v : Int} :
    setS word w lsb v = .ok word' ↔
      w + lsb ≤ 64 ∧ 0 < w ∧ (-2 ^ (w - 1) ≤ v ∧ v ≤ 2 ^ (w - 1) - 1) ∧
        insertField word w lsb (v % 2 ^ w).toNat = word' := by
  by_cases h : w + lsb ≤ 64
  · by_cases hfit : 0 < w ∧ -2 ^ (w - 1) ≤ v ∧ v ≤ 2 ^ (w - 1) - 1
    · simp only [setS_eq h hfit.1 hfit.2, Except.ok.injEq, h, hfit, true_and, and_self]
    · simp only [setS_overflow h hfit, reduceCtorEq, false_iff]
      exact fun ⟨_, hpos, hrange, _⟩ => hfit ⟨hpos, hrange⟩
  · simp [setS_error h, h]

theorem getU_eq_ok_iff {word : Word64} {w lsb v : Nat} :
    getU word w lsb = .ok v ↔ w + lsb ≤ 64 ∧ (word.extractLsb' lsb w).toNat = v := by
  by_cases h : w + lsb ≤ 64
  · simp [getU_eq h, h]
  · simp [getU_error h, h]

theorem getS_eq_ok_iff {word : Word64} {w lsb : Nat} {v : Int} :
    getS word w lsb = .ok v ↔ w + lsb ≤ 64 ∧ (word.extractLsb' lsb w).toInt = v := by
  by_cases h : w + lsb ≤ 64
  · simp [getS_eq h, h]
  · simp [getS_error h, h]

/-! ### What an insertion does to a word -/

/-- R107 for a value given by its bits: the slice of the inserted word is those bits. -/
theorem getU_insertField {word : Word64} {w lsb v : Nat} (h : w + lsb ≤ 64) (hv : v < 2 ^ w) :
    getU (insertField word w lsb v) w lsb = .ok v := by
  rw [getU_eq h, extractLsb'_insertField_same word h hv, BitVec.toNat_ofNat, Nat.mod_eq_of_lt hv]

theorem getS_insertField {word : Word64} {w lsb : Nat} {v : Int} (h : w + lsb ≤ 64) (hw : 0 < w)
    (hv : -2 ^ (w - 1) ≤ v ∧ v ≤ 2 ^ (w - 1) - 1) :
    getS (insertField word w lsb (v % 2 ^ w).toNat) w lsb = .ok v := by
  rw [getS_eq h, extractLsb'_insertField_same word h (emod_two_pow_lt v w),
    toInt_ofNat_emod v hw hv.1 hv.2]

theorem insertField_xor_and_not_mask (word : Word64) {w lsb bits : Nat} (hb : bits < 2 ^ w) :
    (insertField word w lsb bits ^^^ word) &&& ~~~(fieldMask w lsb) = 0#64 := by
  apply BitVec.eq_of_getLsbD_eq
  intro k hk
  have hmask : (fieldMask w lsb).getLsbD k = decide (lsb ≤ k ∧ k < lsb + w) := by
    simp only [fieldMask, BitVec.getLsbD_ofNat, Nat.testBit_shiftLeft, Nat.testBit_two_pow_sub_one,
      hk, decide_true, Bool.true_and, ← Bool.decide_and]
    exact decide_eq_decide.2 (by omega)
  rw [BitVec.getLsbD_and, BitVec.getLsbD_xor, BitVec.getLsbD_not, hmask,
    getLsbD_insertField word w lsb bits k hk hb]
  by_cases hfield : lsb ≤ k ∧ k < lsb + w
  · simp [hfield]
  · simp [hfield]

theorem insertField_extractLsb' (word : Word64) (w lsb : Nat) :
    insertField word w lsb (word.extractLsb' lsb w).toNat = word := by
  apply BitVec.eq_of_getLsbD_eq
  intro k hk
  rw [getLsbD_insertField word w lsb _ k hk (BitVec.isLt _)]
  split
  next hfield =>
    have hlt : k - lsb < w := by omega
    simp [BitVec.testBit_toNat, hlt, hfield.1]
  next => rfl

/-- The two's-complement bits of a slice's signed reading are the slice. -/
theorem toNat_toInt_emod {w : Nat} (x : BitVec w) : (x.toInt % 2 ^ w).toNat = x.toNat := by
  have h := congrArg BitVec.toNat (BitVec.ofInt_toInt (x := x))
  rw [BitVec.toNat_ofInt] at h
  simpa using h

/-- Settles O28: an insertion of a value that fits succeeds, and the field reads back. -/
theorem getOfSetIsTheValue : Obligations.GetOfSetIsTheValue := by
  intro word w lsb h
  have hw : w ≤ 64 := by omega
  refine ⟨fun v hfit => ?_, fun v hfit => ?_, fun v => fitsU_eq_ok_true_iff hw,
    fun v => fitsS_eq_ok_true_iff hw⟩
  · obtain ⟨hpos, hlt⟩ := (fitsU_eq_ok_true_iff hw).1 hfit
    exact ⟨_, setU_eq h hpos hlt, getU_insertField h hlt⟩
  · obtain ⟨hpos, hrange⟩ := (fitsS_eq_ok_true_iff hw).1 hfit
    exact ⟨_, setS_eq h hpos hrange, getS_insertField h hpos hrange⟩

/-- Settles O29: a successful insertion changes bits under the mask alone, and inserting the bits that
stand there changes none. -/
theorem setKeepsOtherBits : Obligations.SetKeepsOtherBits := by
  intro word word' w lsb
  refine ⟨fun v hset => ?_, fun v hset => ?_, fun v hpos hget => ?_, fun v hpos hget => ?_⟩
  · obtain ⟨-, -, hlt, rfl⟩ := setU_eq_ok_iff.1 hset
    exact insertField_xor_and_not_mask word hlt
  · obtain ⟨-, -, -, rfl⟩ := setS_eq_ok_iff.1 hset
    exact insertField_xor_and_not_mask word (emod_two_pow_lt v w)
  · obtain ⟨h, rfl⟩ := getU_eq_ok_iff.1 hget
    exact setU_eq_ok_iff.2 ⟨h, hpos, BitVec.isLt _, insertField_extractLsb' word w lsb⟩
  · obtain ⟨h, rfl⟩ := getS_eq_ok_iff.1 hget
    refine setS_eq_ok_iff.2 ⟨h, hpos, ⟨BitVec.le_toInt _, Int.le_sub_one_of_lt BitVec.toInt_lt⟩, ?_⟩
    rw [toNat_toInt_emod]
    exact insertField_extractLsb' word w lsb

end Sys2Proof.Machine
end

section
/-! PROOFS. The codeword (R130 to R134) and the commands CW.UNPACK, CW.EMIT and CW.FETCH (R136 to R138).
Six slices fix a codeword, so packing has one inverse; four byte slices fix it too, so its four stream
bytes spell it. -/

namespace Sys2Proof.Machine

open Sys2Proof.Claims

/-! ### Slices of a 64-bit word -/

theorem toNat_extractLsb'_word64 (v : Word64) (lsb w : Nat) :
    (v.extractLsb' lsb w).toNat = v.toNat / 2 ^ lsb % 2 ^ w := by
  rw [BitVec.extractLsb'_toNat, Nat.shiftRight_eq_div_pow]

/-- A codeword register holds a 32-bit number (R136). -/
theorem extractLsb'_high_eq_zero_iff (cw : Word64) :
    cw.extractLsb' 32 32 = 0#32 ↔ cw.toNat < 2 ^ 32 := by
  have := cw.isLt
  rw [← BitVec.toNat_inj, toNat_extractLsb'_word64, BitVec.toNat_zero]
  omega

/-! ### Packing and unpacking (R130 to R133) -/

theorem unpack_eq_iff_hasLayout {cw : Word64} {k : ScaledDctBlock} (hcw : cw.toNat < 2 ^ 32) :
    unpack cw = .ok k ↔ HasLayout cw k := by
  cases k with
  | mk a b c d i1 i0 =>
    simp only [unpack_eq, Except.ok.injEq, ScaledDctBlock.mk.injEq, HasLayout,
      (extractLsb'_high_eq_zero_iff cw).2 hcw, and_true]

/-- The ranges of the six slices. -/
theorem blockFits_of_hasLayout {cw : Word64} {k : ScaledDctBlock} (h : HasLayout cw k) :
    BlockFits k := by
  have unsigned {w : Nat} (x : BitVec w) : x.toNat ≤ 2 ^ w - 1 := Nat.le_sub_one_of_lt x.isLt
  have signed (x : BitVec 5) : -16 ≤ x.toInt ∧ x.toInt ≤ 15 :=
    ⟨x.le_toInt, Int.le_of_lt_add_one x.toInt_lt⟩
  obtain ⟨ha, hb, hc, hd, h1, h0, -⟩ := h
  rw [BlockFits, ← ha, ← hb, ← hc, ← hd, ← h1, ← h0]
  exact ⟨unsigned _, signed _, signed _, signed _, unsigned _, unsigned _⟩

/-- The seven slices of R130 are all bits of the word. -/
theorem hasLayout_unique {cw cw' : Word64} {k : ScaledDctBlock} (h : HasLayout cw k)
    (h' : HasLayout cw' k) : cw = cw' := by
  obtain ⟨ha, hb, hc, hd, h1, h0, hhigh⟩ := h
  obtain ⟨ha', hb', hc', hd', h1', h0', hhigh'⟩ := h'
  have slice {lsb w : Nat} (e : cw.extractLsb' lsb w = cw'.extractLsb' lsb w) :
      cw.toNat / 2 ^ lsb % 2 ^ w = cw'.toNat / 2 ^ lsb % 2 ^ w := by
    rw [← toNat_extractLsb'_word64, e, toNat_extractLsb'_word64]
  have ea := slice (BitVec.eq_of_toNat_eq (ha.trans ha'.symm))
  have eb := slice (BitVec.eq_of_toInt_eq (hb.trans hb'.symm))
  have ec := slice (BitVec.eq_of_toInt_eq (hc.trans hc'.symm))
  have ed := slice (BitVec.eq_of_toInt_eq (hd.trans hd'.symm))
  have e1 := slice (BitVec.eq_of_toNat_eq (h1.trans h1'.symm))
  have e0 := slice (BitVec.eq_of_toNat_eq (h0.trans h0'.symm))
  have ehigh := slice (hhigh.trans hhigh'.symm)
  have := cw.isLt
  have := cw'.isLt
  apply BitVec.eq_of_toNat_eq
  omega

theorem pack_eq_ok_iff {cw : Word64} {k : ScaledDctBlock} : pack k = .ok cw ↔ HasLayout cw k := by
  by_cases hfits : BlockFits k
  · obtain ⟨cw', hpack, hlayout⟩ := pack_hasLayout hfits
    rw [hpack, Except.ok.injEq]
    exact ⟨fun h => h ▸ hlayout, fun h => hasLayout_unique hlayout h⟩
  · rw [pack_overflow hfits]
    exact ⟨nofun, fun h => absurd (blockFits_of_hasLayout h) hfits⟩

theorem toNat_lt_of_hasLayout {cw : Word64} {k : ScaledDctBlock} (h : HasLayout cw k) :
    cw.toNat < 2 ^ 32 := by
  obtain ⟨-, -, -, -, -, -, hhigh⟩ := h
  exact (extractLsb'_high_eq_zero_iff cw).1 hhigh

/-- Settles O32: packing and unpacking both state that the word has the layout of the block. -/
theorem packUnpackAreInverse : Obligations.PackUnpackAreInverse := by
  refine ⟨fun k cw hpack => ?_, fun cw hcw => ?_⟩
  · have hlayout := pack_eq_ok_iff.1 hpack
    have hlt := toNat_lt_of_hasLayout hlayout
    exact ⟨(unpack_eq_iff_hasLayout hlt).2 hlayout, hlt⟩
  · have hunpack := unpack_eq cw
    have hlayout := (unpack_eq_iff_hasLayout hcw).1 hunpack
    refine ⟨_, hunpack, blockFits_of_hasLayout hlayout, pack_eq_ok_iff.2 hlayout, fun k' hpack => ?_⟩
    have hunpack' := (unpack_eq_iff_hasLayout hcw).2 (pack_eq_ok_iff.1 hpack)
    exact Except.ok.inj (hunpack'.symm.trans hunpack)

/-! ### CW.UNPACK (R136) -/

theorem uint_zext64 {n : Nat} (h : n < 2 ^ 64) : uint (zext64 n) = n := by
  rw [uint, zext64, BitVec.toNat_ofNat, Nat.mod_eq_of_lt h]

theorem sint_u64 {n : Int} (hlo : -2 ^ 63 ≤ n) (hhi : n < 2 ^ 63) : sint (u64 n) = n :=
  BitVec.toInt_ofInt_eq_self (by decide) hlo hhi

/-- Registers that hold the patterns of a block in the field ranges hold the block (R45). -/
theorem readBlock_eq {t : State} {base : Reg} {k : ScaledDctBlock} (hfits : BlockFits k)
    (h : ∀ (j : Nat) (hj : j < (blockWords k).length),
      t.readX (groupReg base j) = (blockWords k)[j]) : readBlock t base = k := by
  obtain ⟨ha, hb, hc, hd, h1, h0⟩ := hfits
  have r0 : t.readX base = zext64 k.a := by simpa [blockWords] using h 0 (by simp [blockWords])
  have r1 : t.readX (groupReg base 1) = u64 k.b := h 1 (by simp [blockWords])
  have r2 : t.readX (groupReg base 2) = u64 k.c := h 2 (by simp [blockWords])
  have r3 : t.readX (groupReg base 3) = u64 k.d := h 3 (by simp [blockWords])
  have r4 : t.readX (groupReg base 4) = zext64 k.i1 := h 4 (by simp [blockWords])
  have r5 : t.readX (groupReg base 5) = zext64 k.i0 := h 5 (by simp [blockWords])
  simp (disch := omega) only [readBlock, r0, r1, r2, r3, r4, r5, uint_zext64, sint_u64]

/-- Settles O31: the six registers hold the block whose layout the codeword has. -/
theorem cwUnpackResult : Obligations.CwUnpackResult := by
  intro s xd xs hxd
  have hwf : (Instr.cwUnpack xd xs).wf = true := decide_eq_true (by omega : xd.val + 6 ≤ 32)
  constructor
  · intro hcw
    obtain ⟨k, hunpack⟩ : ∃ k, unpack (s.readX xs) = .ok k := ⟨_, unpack_eq _⟩
    have hlayout := (unpack_eq_iff_hasLayout ((extractLsb'_high_eq_zero_iff _).1 hcw)).1 hunpack
    refine completes_of_writeXs (exec_cwUnpack s xd xs) hwf (vs := blockWords k)
      (Nat.add_le_add_right hxd 6) ((if_pos (isCodeword_iff.2 hcw)).trans ?_) fun t ht => ?_
    · exact congrArg (Except.map _) hunpack
    · rwa [readBlock_eq (blockFits_of_hasLayout hlayout) ht]
  · intro hcw
    exact raises_of_body_error (exec_cwUnpack s xd xs) hwf
      (if_neg fun h => hcw (isCodeword_iff.1 h))

/-! ### The four stream bytes (R63, R134) -/

/-- A word whose byte slices are the four bytes, oldest on top, is the number they spell. -/
theorem toNat_of_byte_slices {cw : Word64} {b0 b1 b2 b3 : Byte} (h0 : cw.extractLsb' 24 8 = b0)
    (h1 : cw.extractLsb' 16 8 = b1) (h2 : cw.extractLsb' 8 8 = b2) (h3 : cw.extractLsb' 0 8 = b3)
    (hhigh : cw.toNat < 2 ^ 32) :
    cw.toNat = b0.toNat * 2 ^ 24 + b1.toNat * 2 ^ 16 + b2.toNat * 2 ^ 8 + b3.toNat := by
  rw [← h0, ← h1, ← h2, ← h3]
  simp only [toNat_extractLsb'_word64]
  omega

/-- R134: each byte's slice looks through the insertions after its own, and bits 63:32 through all four. -/
theorem deserialize_toNat (b0 b1 b2 b3 : Byte) :
    ∃ cw, deserialize b0 b1 b2 b3 = .ok cw ∧
      cw.toNat = b0.toNat * 2 ^ 24 + b1.toNat * 2 ^ 16 + b2.toNat * 2 ^ 8 + b3.toNat := by
  have := b0.isLt
  have := b1.isLt
  have := b2.isLt
  have := b3.isLt
  refine ⟨_, deserialize_eq b0 b1 b2 b3, toNat_of_byte_slices ?_ ?_ ?_ ?_
    ((extractLsb'_high_eq_zero_iff _).1 ?_)⟩
  all_goals
    simp (disch := omega) only [extractLsb'_insertField_disjoint,
      extractLsb'_insertField_same, BitVec.ofNat_toNat, BitVec.setWidth_eq]
  rfl

/-- Settles O33: both parts are the number that the four bytes spell. -/
theorem serializationIsBigEndian : Obligations.SerializationIsBigEndian := by
  refine ⟨fun b0 b1 b2 b3 => ?_, fun cw hcw => ?_⟩
  · obtain ⟨cw, hok, hvalue⟩ := deserialize_toNat b0 b1 b2 b3
    rw [hok, ← hvalue, BitVec.ofNat_toNat, BitVec.setWidth_eq]
  · obtain ⟨cw', hok, hvalue⟩ := deserialize_toNat (cw.extractLsb' 24 8) (cw.extractLsb' 16 8)
      (cw.extractLsb' 8 8) (cw.extractLsb' 0 8)
    rw [hok, BitVec.eq_of_toNat_eq (hvalue.trans (toNat_of_byte_slices rfl rfl rfl rfl hcw).symm)]

/-! ### CW.EMIT (R137) -/

/-- Settles O34: the bytes of the codeword go to OUT, and the frame is that of `OutPush`. -/
theorem cwEmitResult : Obligations.CwEmitResult := by
  intro s xs cw
  constructor
  · intro hcw
    refine ⟨_, (exec_cwEmit s xs).trans
      (runCommand_done rfl (if_pos (isCodeword_iff.2 hcw))), rfl, ?_, rfl, fun _ _ => rfl,
      fun _ _ => rfl, rfl, rfl, rfl, ⟨rfl, rfl, rfl, rfl, rfl, rfl, rfl⟩⟩
    simp [BitVec.toNat_add]
  · intro hcw
    exact raises_of_body_error (exec_cwEmit s xs) rfl (if_neg fun h => hcw (isCodeword_iff.1 h))

/-! ### CW.FETCH (R138) -/

/-- With four bytes CW.FETCH, or its re-evaluation, writes the codeword they spell. -/
theorem execCwFetch_of_four {s : State} (xd : Reg) {b0 b1 b2 b3 : Byte} {rest : List Byte}
    (hs : s.inStream = b0 :: b1 :: b2 :: b3 :: rest) :
    ∃ cw : Word64,
      execCwFetch xd s =
        .next (({ s with inStream := rest, held := none }.writeX xd cw).answer .done) ∧
      cw.toNat = b0.toNat * 2 ^ 24 + b1.toNat * 2 ^ 16 + b2.toNat * 2 ^ 8 + b3.toNat := by
  obtain ⟨cw, hok, hvalue⟩ := deserialize_toNat b0 b1 b2 b3
  exact ⟨cw, by simp [execCwFetch, hs, hok], hvalue⟩

/-- Settles O35: the codeword is written to one register, and four bytes leave IN. -/
theorem cwFetchResult : Obligations.CwFetchResult := by
  intro s xd b0 b1 b2 b3 rest hs
  obtain ⟨cw, hexec, hvalue⟩ := execCwFetch_of_four xd hs
  refine ⟨_, hexec, ?_, rfl, rfl, rfl, fun q hq => ?_, fun _ _ => rfl, rfl, rfl, rfl, rfl, rfl, rfl,
    rfl, rfl, rfl⟩
  · rw [State.readX_answer, State.readX_writeX_same, hvalue]
  · exact State.readX_writeX_other _ cw hq

/-- Settles O36: a closed stream ends the fetch and an open one holds it. -/
theorem cwFetchOnShortStream : Obligations.CwFetchOnShortStream := by
  intro s xd hlen
  refine ⟨fun hclosed => ?_, fun hopen herr => ?_⟩
  · exact ⟨_, (execCwFetch_of_short xd hlen).trans (if_pos hclosed), errorEntry_entered s _ _⟩
  · exact ⟨_, (execCwFetch_of_short xd hlen).trans (if_neg (by simp [hopen])), rfl,
      by simp [State.runState, herr]⟩

/-! ### A held CW.FETCH (R138, R237) -/

section Held

variable {s : State} {xd : Reg}

theorem wake_of_held (hheld : s.held = some xd) : wake s = execCwFetch xd s := by
  simp [wake, hheld]

theorem pushIn_of_held (b : Byte) (hheld : s.held = some xd) (hopen : s.inClosed = false)
    (hlen : s.inStream.length < 4) :
    pushIn b s = execCwFetch xd { s with inStream := s.inStream ++ [b] } := by
  rw [pushIn, if_neg (by simp [hopen]), if_neg (by omega)]
  exact wake_of_held (s := { s with inStream := s.inStream ++ [b] }) hheld

theorem closeIn_of_held (hheld : s.held = some xd) (hopen : s.inClosed = false) :
    closeIn s = execCwFetch xd { s with inClosed := true } := by
  rw [closeIn, if_neg (by simp [hopen])]
  exact wake_of_held (s := { s with inClosed := true }) hheld

theorem runState_of_held (hinv : s.Inv) (hheld : s.held = some xd) : s.runState = .waiting := by
  simp [State.runState, hinv.beforeWake.err_of_held hheld, hheld]

/-- Storing the fetch that is held already changes nothing. -/
theorem hold_of_held (hheld : s.held = some xd) : { s with held := some xd } = s := by
  rw [← hheld]

/-- The host operations that leave a held fetch alone. -/
theorem hostMove_keeps_held {t : State} {op : HostOp} (hrun : s.runState = .waiting)
    (hop : op = .drainOut ∨ (∃ n, op = .readCR n) ∨ ∃ w, op = .issue w)
    (h : hostMove op s = .next t) : t.held = s.held ∧ t.inStream = s.inStream := by
  rcases hop with rfl | ⟨n, rfl⟩ | ⟨w, rfl⟩
  · obtain ⟨a, rest, hdrain⟩ := drainOut_answers s
    cases hdrain.symm.trans h
    exact ⟨rfl, rfl⟩
  · cases h
    exact ⟨rfl, rfl⟩
  · cases (issue_of_waiting w hrun).symm.trans h
    exact ⟨rfl, rfl⟩

end Held

/-- Settles O37: a push or a close evaluates the held fetch again, with the outcome of CW.FETCH on the
stream it then finds. -/
theorem heldFetchWaitsForTheHost : Obligations.HeldFetchWaitsForTheHost := by
  intro s xd hinv hheld
  obtain ⟨hlen, hopen⟩ := hinv.held_is_short (by simp [hheld])
  have hrun := runState_of_held hinv hheld
  have herr := hinv.beforeWake.err_of_held hheld
  refine ⟨fun b0 b1 b2 b3 hs => ?_, ?_, fun b hshort => ?_, fun op t hop h => ?_, fun hops => ?_⟩
  · obtain ⟨cw, hexec, hvalue⟩ := execCwFetch_of_four (s := { s with inStream := s.inStream ++ [b3] })
      xd (rest := []) (congrArg (· ++ [b3]) hs)
    refine ⟨_, (pushIn_of_held b3 hheld hopen hlen).trans hexec, ?_, rfl, ?_, rfl, fun q hq => ?_⟩
    · rw [State.readX_answer, State.readX_writeX_same, hvalue]
    · simp [State.runState, herr]
    · exact State.readX_writeX_other _ cw hq
  · have hfetch := execCwFetch_of_short (s := { s with inClosed := true }) xd hlen
    exact ⟨_, (closeIn_of_held hheld hopen).trans (hfetch.trans (if_pos rfl)), rfl, rfl, rfl, rfl, rfl,
      fun _ _ => rfl⟩
  · refine (pushIn_of_held b hheld hopen hlen).trans ((execCwFetch_of_short xd ?_).trans ?_)
    · simp only [List.length_append, List.length_singleton]
      omega
    · rw [if_neg (by simp [hopen])]
      exact congrArg _ (hold_of_held (s := { s with inStream := s.inStream ++ [b] }) hheld)
  · rw [← hheld]
    exact hostMove_keeps_held hrun hop h
  · rw [step, nextMove_of_waiting_no_op hrun hops]
    rfl

end Sys2Proof.Machine
end

section
/-! PROOFS. Control-register access (R190, R191). The shapes of a command that writes one register, and of
an ill-formed one, are proved once here. -/

namespace Sys2Proof.Machine

open Sys2Proof.Claims

/-! ### Commands that write one register, and ill-formed commands -/

section OneRegister

variable {i : Instr} {s : State} {reads : List RegName} {body : State → Except ErrKind State}
  {post : State → Prop}

theorem completes_of_writeX {xd : Reg} {v : Word64}
    (hexec : exec i s = runCommand i reads body s) (hwf : i.wf = true)
    (hok : body (s.noteReads reads) = .ok ((s.noteReads reads).writeX xd v))
    (hpost : ∀ t : State, t.readX xd = v → post t) : Completes i s (· = xd) noReg post :=
  ⟨_, by rw [hexec, runCommand_done hwf hok], registersOnly_writeX s reads xd v, hpost _ (by simp)⟩

theorem completes_of_writeF {fd : Reg} {b : Word32}
    (hexec : exec i s = runCommand i reads body s) (hwf : i.wf = true)
    (hok : body (s.noteReads reads) = .ok ((s.noteReads reads).writeF fd b))
    (hpost : ∀ t : State, t.readF fd = b → post t) : Completes i s noReg (· = fd) post :=
  ⟨_, by rw [hexec, runCommand_done hwf hok], registersOnly_writeF s reads fd b, hpost _ (by simp)⟩

theorem raises_of_illformed (hexec : exec i s = runCommand i reads body s) (hwf : i.wf = false) :
    Raises i s .illegalCommand :=
  ⟨_, by rw [hexec, runCommand_illegal hwf], errorEntry_entered s _ _⟩

end OneRegister

/-! ### CR.RD, CR.WR -/

theorem crRd_completes (s : State) (xd : Reg) {crn : Reg} {c : CReg} {post : State → Prop}
    (hc : CReg.ofNumber crn.val = some c) (hcrn : crn.val ≤ 4)
    (hpost : ∀ t : State, t.readX xd = s.readCR c → post t) :
    Completes (.crRd xd crn) s (· = xd) noReg post := by
  refine completes_of_writeX (exec_crRd s xd crn) (decide_eq_true hcrn) ?_ hpost
  rw [hc]
  cases c with
  | status | denom | inCount | outCount | faultCmd => rfl

/-- In an IDLE unit STATUS shows INCLOSED alone (R38, R43). -/
theorem status_of_idle {s : State} (h : s.runState = .idle) :
    s.status = if s.inClosed then 0x10#64 else 0#64 := by
  have hheld : s.held = none := by
    cases hheld : s.held with
    | none => rfl
    | some xd => simp [State.runState, err_of_idle h, hheld] at h
  cases hclosed : s.inClosed with
  | true => simp [State.status, err_of_idle h, hheld, hclosed, errCode]
  | false => simp [State.status, err_of_idle h, hheld, hclosed, errCode]

/-- Settles O55: by the number, which names one control register up to 4 and none above. -/
theorem crRdResult : Obligations.CrRdResult := by
  intro s xd
  refine ⟨?_, ?_, ?_, ?_, ?_, fun crn hcrn => ?_⟩
  · refine crRd_completes s xd (c := .status) rfl (by decide) fun t ht => ⟨ht, fun hidle => ?_⟩
    exact ht.trans (status_of_idle hidle)
  · exact crRd_completes s xd (c := .denom) rfl (by decide) fun t ht => ht
  · refine crRd_completes s xd (c := .inCount) rfl (by decide) fun t ht => ?_
    exact (congrArg BitVec.toNat ht).trans (BitVec.toNat_ofNat _ _)
  · exact crRd_completes s xd (c := .outCount) rfl (by decide) fun t ht => ht
  · refine crRd_completes s xd (c := .faultCmd) rfl (by decide) fun t ht => ?_
    exact (congrArg BitVec.toNat ht).trans (BitVec.toNat_setWidth_of_le (by decide))
  · exact raises_of_illformed (exec_crRd s xd crn) (decide_eq_false (Nat.not_le.2 hcrn))

/-- Settles O56: DENOM is the one register the write touches. -/
theorem crWrResult : Obligations.CrWrResult := by
  intro s xs
  refine ⟨⟨_, (exec_crWr s 1 xs).trans (runCommand_done rfl rfl), rfl, rfl, fun _ _ => rfl,
    fun _ _ => rfl, ⟨rfl, rfl, rfl, rfl, rfl⟩, ⟨rfl, rfl, rfl, rfl, rfl, rfl, rfl⟩⟩, fun crn hcrn => ?_⟩
  exact raises_of_illformed (exec_crWr s crn xs) (decide_eq_false hcrn)

end Sys2Proof.Machine
end

section
/-! PROOFS. The quantizer (R151 to R154) and the chroma lookup (R156 to R158). What each command computes is
shown of its function first; the command then writes it to one register. -/

namespace Sys2Proof.Machine

open Sys2Proof.Claims

/-! ### Q.FA (R151) -/

/-- Settles O41: the floor in range is the result, and the product below 0 or from 512 on has none. -/
theorem qFAResult : Obligations.QFAResult := by
  intro s xd fs
  refine ⟨fun hinf => ?_, fun hfin => ⟨fun n hn hlo hhi => ?_, fun hout => ?_⟩⟩
  · exact raises_of_compute_error (exec_qFA s xd fs) rfl (quantizeA_not_finite hinf)
  · have hfloor : ⌊val32 (s.readF fs) * 511⌋ = (n : Int) := Int.floor_eq_iff.2 ⟨hlo, hhi⟩
    have hin : ¬(val32 (s.readF fs) * 511 < 0 ∨ 512 ≤ val32 (s.readF fs) * 511) := by
      rw [← quantizeA_floor_iff, hfloor]
      omega
    refine completes_of_compute_ok (exec_qFA s xd fs) rfl (quantizeA_ok hfin hin) fun t ht => ?_
    rw [ht, State.readF_noteReads, hfloor]
    exact uint_zext64 (n := n) (by omega)
  · refine raises_of_compute_error (exec_qFA s xd fs) rfl (quantizeA_overflow hfin (hout.imp_left ?_))
    exact fun hneg => mul_neg_of_neg_of_pos hneg (by norm_num)

/-! ### Q.FBCD (R152) -/

/-- The integer part of a value strictly between -15 and 15. -/
theorem trunc_spec {q : ℚ} (hlo : -15 < q) (hhi : q < 15) :
    -14 ≤ trunc q ∧ trunc q ≤ 14 ∧ (0 ≤ q → (trunc q : ℚ) ≤ q ∧ q < trunc q + 1) ∧
      (q ≤ 0 → (trunc q : ℚ) - 1 < q ∧ q ≤ trunc q) := by
  have hfloor (h : 0 ≤ q) : (trunc q : ℚ) ≤ q ∧ q < trunc q + 1 := by
    rw [trunc_of_nonneg h]
    exact ⟨Int.floor_le q, Int.lt_floor_add_one q⟩
  have hceil (h : q ≤ 0) : (trunc q : ℚ) - 1 < q ∧ q ≤ trunc q := by
    rw [trunc_of_nonpos h]
    exact ⟨by linarith [Int.ceil_lt_add_one q], Int.le_ceil q⟩
  suffices h : (-15 : Int) < trunc q ∧ trunc q < 15 from ⟨by omega, by omega, hfloor, hceil⟩
  rcases le_total 0 q with h | h
  · obtain ⟨h1, h2⟩ := hfloor h
    exact ⟨by exact_mod_cast (by linarith : (-15 : ℚ) < trunc q),
      by exact_mod_cast (by linarith : (trunc q : ℚ) < 15)⟩
  · obtain ⟨h1, h2⟩ := hceil h
    exact ⟨by exact_mod_cast (by linarith : (-15 : ℚ) < trunc q),
      by exact_mod_cast (by linarith : (trunc q : ℚ) < 15)⟩

/-- R152 over its three ranges. -/
theorem quantizeBCD_spec {b : Word32} (hfin : isFinite b = true) :
    ∃ n, quantizeBCD b = .ok n ∧ (-15 ≤ n ∧ n ≤ 15) ∧ (3 / 10 ≤ val32 b → n = 15) ∧
      (val32 b ≤ -(3 / 10) → n = -15) ∧
      (-(3 / 10) < val32 b → val32 b < 3 / 10 → n = trunc (val32 b * 50)) := by
  simp only [quantizeBCD, hfin, Bool.not_true, Bool.false_eq_true, if_false]
  by_cases hhigh : 3 / 10 ≤ val32 b
  · exact ⟨15, if_pos hhigh, by decide, fun _ => rfl, fun h => by linarith, fun _ h => by linarith⟩
  · by_cases hlow : val32 b ≤ -(3 / 10)
    · exact ⟨-15, by rw [if_neg hhigh, if_pos hlow], by decide, fun h => absurd h hhigh, fun _ => rfl,
        fun h => absurd hlow (not_le.2 h)⟩
    · obtain ⟨h1, h2, -⟩ := trunc_spec (q := val32 b * 50) (by linarith) (by linarith)
      exact ⟨_, by rw [if_neg hhigh, if_neg hlow], ⟨by omega, by omega⟩, fun h => absurd h hhigh,
        fun h => absurd h hlow, fun _ _ => rfl⟩

/-- Settles O42: the quantized value is small, so the register's signed reading is the value. -/
theorem qFBCDResult : Obligations.QFBCDResult := by
  intro s xd fs v
  constructor
  · intro hinf
    exact raises_of_compute_error (exec_qFBCD s xd fs) rfl (quantizeBCD_not_finite hinf)
  · intro hfin
    obtain ⟨n, hok, hrange, hhigh, hlow, hmid⟩ := quantizeBCD_spec hfin
    refine completes_of_compute_ok (exec_qFBCD s xd fs) rfl hok fun t ht => ?_
    have hvalue : (t.readX xd).toInt = n := by
      rw [ht]
      exact sint_u64 (by omega) (by omega)
    rw [hvalue]
    refine ⟨hhigh, hlow, fun hlo hhi => ?_⟩
    obtain ⟨h1, h2, hpos, hneg⟩ := trunc_spec (q := v * 50) (by linarith) (by linarith)
    rw [hmid hlo hhi]
    exact ⟨h1, h2, fun h => hpos (by linarith), fun h => hneg (by linarith)⟩

/-- Settles O43: quantized values lie in -15..15, so the block fits its codeword. -/
theorem quantizedCoefficientsPack : Obligations.QuantizedCoefficientsPack := by
  intro fb fc fd a i1 i0 hb hc hd ha h1 h0
  obtain ⟨b, hbok, hbr, -⟩ := quantizeBCD_spec hb
  obtain ⟨c, hcok, hcr, -⟩ := quantizeBCD_spec hc
  obtain ⟨d, hdok, hdr, -⟩ := quantizeBCD_spec hd
  have hfits : BlockFits ⟨a, b, c, d, i1, i0⟩ := by
    simp only [BlockFits]
    omega
  obtain ⟨cw, hpack, -⟩ := pack_hasLayout hfits
  exact ⟨b, c, d, cw, hbok, hcok, hdok, by simp [hbr, hcr, hdr], hpack⟩

/-! ### Q.IA, Q.IBCD (R153, R154) -/

/-- Settles O44: the range check, then the rounded quotient. -/
theorem qIAandQIBCDResult : Obligations.QIAandQIBCDResult := by
  intro s fd xs
  refine ⟨fun h => ?_, fun h => ?_, fun hlo hhi => ?_, fun h => ?_⟩
  · exact completes_of_writeF (exec_qIA s fd xs) rfl
      (congrArg (Except.map _) (if_neg (Nat.not_lt.2 h))) fun t ht => ht
  · exact raises_of_body_error (exec_qIA s fd xs) rfl (congrArg (Except.map _) (if_pos h))
  · refine completes_of_writeF (exec_qIBCD s fd xs) rfl
      (congrArg (Except.map _) (if_neg ?_)) fun t ht => ht
    exact not_or.2 ⟨not_lt.2 hlo, not_lt.2 hhi⟩
  · exact raises_of_body_error (exec_qIBCD s fd xs) rfl (congrArg (Except.map _) (if_pos h))

/-! ### Q.CIDX, Q.CVAL (R156 to R158) -/

theorem chromaDistance_eq (table : Vector Word32 16) (v : ℚ) (i : Fin 16) :
    chromaDistance table v i = |v - val32 table[i]| := by
  simp only [chromaDistance]
  split
  next h => rw [abs_of_neg h]
  next h => rw [abs_of_nonneg (not_lt.1 h)]

/-- `r` is as near as `j`, and strictly nearer if `j` stands below it. -/
def LeastNearest {n : Nat} (d : Fin n → ℚ) (r j : Fin n) : Prop := d r ≤ d j ∧ (j < r → d r < d j)

/-- An upward scan that moves only to a strictly nearer entry ends at the least of the nearest. -/
theorem foldl_leastNearest {n : Nat} (d : Fin n → ℚ) (l : List (Fin n)) (best : Fin n)
    (hsorted : (best :: l).Pairwise (· ≤ ·)) :
    ∀ j ∈ best :: l,
      LeastNearest d (l.foldl (fun best i => if d i < d best then i else best) best) j := by
  induction l generalizing best with
  | nil => simp [LeastNearest]
  | cons a l ih =>
    obtain ⟨hbest, ha, hl⟩ : (∀ j ∈ a :: l, best ≤ j) ∧ (∀ j ∈ l, a ≤ j) ∧ l.Pairwise (· ≤ ·) := by
      simpa using hsorted
    have hba : best ≤ a := hbest a (by simp)
    rw [List.foldl_cons]
    split
    next hnearer =>
      have h := ih a (List.pairwise_cons.2 ⟨ha, hl⟩)
      intro j hj
      rcases List.mem_cons.1 hj with rfl | hj
      · have hlt := (h a (by simp)).1.trans_lt hnearer
        exact ⟨hlt.le, fun _ => hlt⟩
      · exact h j hj
    next hfarther =>
      have h := ih best (List.pairwise_cons.2 ⟨fun j hj => hbest j (by simp [hj]), hl⟩)
      obtain ⟨hle, hlt⟩ := h best (by simp)
      intro j hj
      rcases List.mem_cons.1 hj with rfl | hj
      · exact ⟨hle, hlt⟩
      · rcases List.mem_cons.1 hj with rfl | hj
        · exact ⟨hle.trans (not_lt.1 hfarther),
            fun hj => (hlt (hba.trans_lt hj)).trans_le (not_lt.1 hfarther)⟩
        · exact h j (by simp [hj])

/-- R156 for the table's scan. -/
theorem chromaIndexOf_leastNearest (table : Vector Word32 16) (v : ℚ) (j : Fin 16) :
    LeastNearest (fun i => |v - val32 table[i]|) (chromaIndexOf table v) j := by
  simp only [← chromaDistance_eq]
  exact foldl_leastNearest (chromaDistance table v) (List.finRange 16) 0
    (List.pairwise_cons.2 ⟨fun j _ => Fin.zero_le j, by decide⟩) j (by simp)

/-- Settles O45: the index is the scan's. -/
theorem qCIdxIsLeastNearest : Obligations.QCIdxIsLeastNearest := by
  intro s xd fs v dist
  constructor
  · intro hinf
    exact raises_of_compute_error (exec_qCIdx s xd fs) rfl (chromaIndex_not_finite hinf)
  · intro hfin
    refine completes_of_compute_ok (exec_qCIdx s xd fs) rfl (chromaIndex_ok hfin) fun t ht => ?_
    refine ⟨chromaIndexOf s.config.chromaTable v, ?_,
      fun j => (chromaIndexOf_leastNearest _ v j).1, fun j => (chromaIndexOf_leastNearest _ v j).2⟩
    rw [ht]
    exact uint_zext64 (lt_trans (Fin.isLt _) (by decide))

/-- Settles O46: the entry is copied, and there is none above 15. -/
theorem qCValResult : Obligations.QCValResult := by
  intro s fd xs
  refine ⟨fun i hi => ?_, fun h => ?_⟩
  · have hok : chromaValue s.config.chromaTable (uint (s.readX xs)) =
        .ok s.config.chromaTable[i] := by
      rw [uint, hi]
      exact dif_pos i.isLt
    exact completes_of_writeF (exec_qCVal s fd xs) rfl (congrArg (Except.map _) hok) fun t ht => ht
  · exact raises_of_body_error (exec_qCVal s fd xs) rfl
      (congrArg (Except.map _) (dif_neg (Nat.not_lt.2 h)))

/-- Settles O47: an entry is at distance 0 from its own value, so what the lookup finds has that value
too. -/
theorem chromaLookupInvertsItself : Obligations.ChromaLookupInvertsItself := by
  refine ⟨fun table i hdistinct => ?_, by decide +kernel⟩
  obtain ⟨hle, -⟩ := chromaIndexOf_leastNearest table (val32 table[i]) i
  simp only [sub_self, abs_zero, abs_nonpos_iff, sub_eq_zero] at hle
  exact (hdistinct _ _ hle).symm

end Sys2Proof.Machine
end

section
/-! PROOFS. The patterns of R14, and the rounding to them in units. A value other than 0 is rounded at one
exponent, to a whole number of the spacing of the patterns there; the sign goes with it, and from one
threshold on the result is an infinity. -/

namespace Sys2Proof.Machine

/-! ### Patterns -/

/-- Settles O58: the slices are the fields of the pattern. -/
theorem patternsAreBinary32 : Obligations.PatternsAreBinary32 := by
  refine ⟨fun b => ?_, by decide +kernel, by decide +kernel⟩
  simp only [extractLsb'_exponent, extractLsb'_fraction, extractLsb'_sign]
  have hsign (m : ℚ) : (if f32Sign b then -m else m) = (-1) ^ (f32Sign b).toNat * m := by
    cases f32Sign b with
    | true => simp
    | false => simp
  refine ⟨by simp [isFinite], fun hlo _ => ?_, fun hzero => ?_⟩
  · have hnormal : f32Exp b ≠ 0 := by omega
    simp only [val32, hsign, hnormal, if_false, pow2_eq]
    rw [mul_assoc]
    rfl
  · simp only [val32, hsign, hzero, if_true, pow2_eq]
    rw [mul_assoc]
    rfl

/-- A finite value is a whole number of units `2^j`, below `2^24` of them. -/
theorem val32_eq_int_mul {b : Word32} :
    ∃ k : Int, |k| < 2 ^ 24 ∧ val32 b = k * pow2 (exponent b - 23) := by
  have hlt : (significand b : Int) < 2 ^ 24 := by exact_mod_cast significand_lt b
  rw [val32_eq]
  cases f32Sign b with
  | true => exact ⟨-significand b, by rw [abs_neg, Nat.abs_cast]; exact hlt, by simp⟩
  | false => exact ⟨significand b, by rw [Nat.abs_cast]; exact hlt, by simp⟩

theorem abs_val32 (b : Word32) : |val32 b| = significand b * pow2 (exponent b - 23) := by
  have habs : |(significand b : ℚ) * pow2 (exponent b - 23)| =
      significand b * pow2 (exponent b - 23) :=
    abs_of_nonneg (mul_nonneg (Nat.cast_nonneg _) (pow2_pos _).le)
  rw [val32_eq, abs_mul, habs]
  cases f32Sign b with
  | true => simp
  | false => simp

/-- The greatest finite magnitude is `2^128 - 2^104`. -/
theorem abs_val32_le {b : Word32} (h : isFinite b = true) : |val32 b| ≤ 2 ^ 128 - 2 ^ 104 := by
  have hsig : (significand b : ℚ) ≤ 2 ^ 24 - 1 := by
    have : significand b + 1 ≤ 2 ^ 24 := significand_lt b
    have : ((significand b + 1 : Nat) : ℚ) ≤ ((2 ^ 24 : Nat) : ℚ) := by exact_mod_cast this
    push_cast at this
    linarith
  have hexp : pow2 (exponent b - 23) ≤ 2 ^ 104 :=
    (pow2_le (by have := exponent_le h; omega : exponent b - 23 ≤ 104)).trans_eq (pow2_eq 104)
  calc |val32 b| = significand b * pow2 (exponent b - 23) := abs_val32 b
    _ ≤ (2 ^ 24 - 1) * 2 ^ 104 := mul_le_mul hsig hexp (pow2_pos _).le (by norm_num)
    _ = 2 ^ 128 - 2 ^ 104 := by norm_num

/-! ### The exponent and the units of a rounding -/

/-- The exponent `rnd32` rounds at: that of R14, and -126 for the subnormals. -/
def roundExponent (q : ℚ) : Int := max (floorLog2 |q|) (-126)

/-- The spacing of the patterns at that exponent. -/
def ulp (q : ℚ) : ℚ := pow2 (roundExponent q - 23)

/-- The magnitude in these units, rounded. -/
def roundedUnits (q : ℚ) : Int := roundHalfEven (|q| / ulp q)

theorem rnd32_eq {q : ℚ} (hq : q ≠ 0) :
    rnd32 q =
      if pow2 128 ≤ roundedUnits q * ulp q then
        if q < 0 then 0xFF800000#32 else 0x7F800000#32
      else finitePattern (decide (q < 0)) (roundExponent q) (roundedUnits q).toNat := by
  have habs : (if q < 0 then -q else q) = |q| := by
    split
    next h => rw [abs_of_neg h]
    next h => rw [abs_of_nonneg (not_lt.1 h)]
  simp only [rnd32, hq, if_false, habs]
  rfl

section Units

variable {q : ℚ}

theorem ulp_pos : 0 < ulp q := pow2_pos _

theorem pow_mul_ulp (k : Nat) : 2 ^ k * ulp q = pow2 (roundExponent q + (k - 23)) := by
  have hpow : (2 : ℚ) ^ k = pow2 k := by rw [pow2_eq, zpow_natCast]
  rw [ulp, hpow, ← pow2_add]
  congr 1
  ring

theorem roundExponent_ge : -126 ≤ roundExponent q := le_max_right _ _

/-- The rounding leaves at most half a unit, and exactly half only at an even number of units. -/
theorem abs_sub_roundedUnits :
    |(|q| - roundedUnits q * ulp q)| ≤ ulp q / 2 ∧
      (|(|q| - roundedUnits q * ulp q)| = ulp q / 2 → roundedUnits q % 2 = 0) := by
  obtain ⟨hle, heven⟩ := roundHalfEven_spec (|q| / ulp q)
  have hscale : |(|q| - roundedUnits q * ulp q)| = |(|q| / ulp q - roundedUnits q)| * ulp q := by
    rw [← abs_of_pos (ulp_pos (q := q)), ← abs_mul, abs_of_pos ulp_pos, sub_mul,
      div_mul_cancel₀ _ ulp_pos.ne']
  rw [hscale]
  constructor
  · exact (mul_le_mul_of_nonneg_right hle ulp_pos.le).trans_eq (by ring)
  · intro h
    refine heven (mul_right_cancel₀ ulp_pos.ne' (h.trans (by ring)))

theorem pow_128_le_mul_ulp (h : 128 ≤ roundExponent q) : 2 ^ 128 ≤ 2 ^ 23 * ulp q := by
  rw [pow_mul_ulp, ← zpow_natCast, ← pow2_eq]
  exact pow2_le (by push_cast; omega)

/-- At the top exponent the threshold is halfway between `2^24 - 1` units, an odd number, and `2^24`, so
the tie goes up. -/
theorem le_roundedUnits_of_threshold (hulp : ulp q = 2 ^ 104) (h : 2 ^ 128 - 2 ^ 103 ≤ |q|) :
    2 ^ 24 ≤ roundedUnits q := by
  obtain ⟨hhalf, htie⟩ := abs_sub_roundedUnits (q := q)
  have hhi := (abs_le.1 hhalf).2
  rw [hulp] at hhi hhalf htie
  by_contra hn
  have hge : 2 ^ 24 - 2 < roundedUnits q := by
    have : (2 ^ 24 - 2 : ℚ) < roundedUnits q := by linarith
    exact_mod_cast this
  have hodd : roundedUnits q = 2 ^ 24 - 1 := by omega
  have heven := htie (le_antisymm hhalf (le_abs.2 (.inl (by rw [hodd]; push_cast; linarith))))
  omega

variable (hq : q ≠ 0)
include hq

theorem abs_lt_mul_ulp : |q| < 2 ^ 24 * ulp q := by
  obtain ⟨-, hlt⟩ := floorLog2_spec (abs_pos.2 hq)
  have hle : floorLog2 |q| ≤ roundExponent q := le_max_left _ _
  rw [pow_mul_ulp]
  exact hlt.trans_le (pow2_le (by push_cast; omega))

theorem mul_ulp_le_abs (h : -126 < roundExponent q) : 2 ^ 23 * ulp q ≤ |q| := by
  obtain ⟨hle, -⟩ := floorLog2_spec (abs_pos.2 hq)
  have hexp : roundExponent q = floorLog2 |q| := by
    unfold roundExponent at h ⊢
    omega
  rw [pow_mul_ulp]
  exact (pow2_le (by push_cast; omega)).trans hle

/-- The number of units is the significand of a pattern, which is small only for the subnormals. -/
theorem roundedUnits_bounds :
    0 ≤ roundedUnits q ∧ roundedUnits q ≤ 2 ^ 24 ∧
      (-126 < roundExponent q → 2 ^ 23 ≤ roundedUnits q) := by
  have hu := ulp_pos (q := q)
  obtain ⟨hlo, hhi⟩ := abs_le.1 (abs_sub_roundedUnits (q := q)).1
  have above {k : Int} (h : (k : ℚ) * ulp q < (roundedUnits q + 1) * ulp q) : k ≤ roundedUnits q :=
    Int.lt_add_one_iff.1 (by exact_mod_cast lt_of_mul_lt_mul_right h hu.le)
  refine ⟨above ?_, ?_, fun h => above ?_⟩
  · push_cast
    linarith [abs_nonneg q]
  · have hlt : (roundedUnits q : ℚ) * ulp q < (2 ^ 24 + 1) * ulp q := by
      linarith [abs_lt_mul_ulp hq]
    exact Int.lt_add_one_iff.1 (by exact_mod_cast lt_of_mul_lt_mul_right hlt hu.le)
  · push_cast
    linarith [mul_ulp_le_abs hq h]

theorem threshold_le_of_overflow (h : 2 ^ 128 ≤ roundedUnits q * ulp q) :
    2 ^ 128 - 2 ^ 103 ≤ |q| := by
  obtain ⟨hlo, -⟩ := abs_le.1 (abs_sub_roundedUnits (q := q)).1
  by_contra hlt
  have hexp : roundExponent q ≤ 127 := by
    by_contra hexp
    linarith [pow_128_le_mul_ulp (q := q) (by omega), mul_ulp_le_abs hq (by omega)]
  have hulp : ulp q ≤ 2 ^ 104 := (pow2_le (by omega)).trans_eq (pow2_eq 104)
  linarith

theorem overflow_of_threshold_le (h : 2 ^ 128 - 2 ^ 103 ≤ |q|) :
    2 ^ 128 ≤ roundedUnits q * ulp q := by
  obtain ⟨-, -, hnormal⟩ := roundedUnits_bounds hq
  have hexp : 127 ≤ roundExponent q := by
    by_contra hexp
    have hle : 2 ^ 24 * ulp q ≤ 2 ^ 127 := by
      rw [pow_mul_ulp]
      exact (pow2_le (by push_cast; omega)).trans_eq (pow2_eq 127)
    linarith [abs_lt_mul_ulp hq]
  rcases hexp.lt_or_eq with hgt | htop
  · have hmin : (2 : ℚ) ^ 23 ≤ roundedUnits q := by exact_mod_cast hnormal (by omega)
    exact (pow_128_le_mul_ulp hgt).trans (mul_le_mul_of_nonneg_right hmin ulp_pos.le)
  · have hulp : ulp q = 2 ^ 104 := by rw [ulp, ← htop]; exact pow2_eq 104
    have hmin : (2 : ℚ) ^ 24 ≤ roundedUnits q := by
      exact_mod_cast le_roundedUnits_of_threshold hulp h
    rw [hulp]
    linarith

/-- R14's overflow: the rounded magnitude reaches `2^128` exactly from the threshold on. -/
theorem overflow_iff :
    pow2 128 ≤ roundedUnits q * ulp q ↔ 2 ^ 128 - 2 ^ 103 ≤ |q| := by
  rw [show pow2 128 = 2 ^ 128 from pow2_eq 128]
  exact ⟨threshold_le_of_overflow hq, overflow_of_threshold_le hq⟩

theorem exponent_of_not_overflow (h : ¬pow2 128 ≤ roundedUnits q * ulp q) :
    roundExponent q ≤ 127 ∧ (roundedUnits q = 2 ^ 24 → roundExponent q < 127) := by
  obtain ⟨-, -, hnormal⟩ := roundedUnits_bounds hq
  have low {k : Nat} (hk : 2 ^ k ≤ roundedUnits q) : roundExponent q + (k - 23) < 128 := by
    by_contra hexp
    have hk' : (2 : ℚ) ^ k ≤ roundedUnits q := by exact_mod_cast hk
    refine h (le_trans ?_ (mul_le_mul_of_nonneg_right hk' ulp_pos.le))
    rw [pow_mul_ulp]
    exact pow2_le (not_lt.1 hexp)
  constructor
  · by_contra hexp
    have := low (k := 23) (hnormal (by omega))
    omega
  · intro hn
    have := low (k := 24) hn.ge
    omega

end Units

/-! ### The sign and the parity of the pattern -/

theorem finitePattern_sign_parity (negative : Bool) {e : Int} {n : Nat} (he : -126 ≤ e)
    (hm : e ≤ 127) (hn : n ≤ 2 ^ 24) (ho : n = 2 ^ 24 → e < 127) :
    f32Sign (finitePattern negative e n) = negative ∧
      f32Frac (finitePattern negative e n) % 2 = n % 2 := by
  unfold finitePattern
  by_cases h1 : n < 2 ^ 23
  · obtain ⟨fs, -, ff⟩ := fields_ofNat negative (E := 0) (M := n) (by decide) h1
    simp only [zero_mul, add_zero] at fs ff
    simp only [h1, if_true]
    exact ⟨fs, by rw [ff]⟩
  · by_cases h2 : n < 2 ^ 24
    · obtain ⟨fs, -, ff⟩ := fields_ofNat negative (E := (e + 127).toNat) (M := n - 2 ^ 23)
        (by omega) (by omega)
      simp only [h1, h2, if_true, if_false]
      exact ⟨fs, by rw [ff]; omega⟩
    · have := ho (by omega)
      obtain ⟨fs, -, ff⟩ := fields_ofNat negative (E := (e + 128).toNat) (M := 0)
        (by omega) (by decide)
      simp only [add_zero] at fs ff
      simp only [h1, h2, if_false]
      exact ⟨fs, by rw [ff]; omega⟩

theorem getLsbD_zero_eq (b : Word32) : b.getLsbD 0 = decide (f32Frac b % 2 = 1) := by
  rw [BitVec.getLsbD, Nat.testBit_zero, f32Frac]
  exact decide_eq_decide.2 (by omega)

/-- What a rounding without overflow gives: the pattern of the rounded units, with the sign. -/
theorem rnd32_of_not_overflow {q : ℚ} (hq : q ≠ 0)
    (h : ¬pow2 128 ≤ roundedUnits q * ulp q) :
    isFinite (rnd32 q) = true ∧
      val32 (rnd32 q) = (if q < 0 then -1 else 1) * (roundedUnits q * ulp q) ∧
      f32Sign (rnd32 q) = decide (q < 0) ∧
      (roundedUnits q % 2 = 0 → (rnd32 q).getLsbD 0 = false) := by
  obtain ⟨hnonneg, hle, hnormal⟩ := roundedUnits_bounds hq
  obtain ⟨hexp, htop⟩ := exponent_of_not_overflow hq h
  obtain ⟨n, hn⟩ := Int.eq_ofNat_of_zero_le hnonneg
  have hge := roundExponent_ge (q := q)
  obtain ⟨hfin, hval⟩ := finitePattern_spec (decide (q < 0)) (n := n) hge (by omega) (by omega) hexp
    (by omega)
  obtain ⟨hsign, hparity⟩ := finitePattern_sign_parity (decide (q < 0)) (n := n) hge hexp (by omega)
    (by omega)
  rw [rnd32_eq hq, if_neg h, hn, Int.toNat_natCast]
  refine ⟨hfin, by simpa [ulp] using hval, hsign, fun heven => ?_⟩
  rw [getLsbD_zero_eq, hparity]
  exact decide_eq_false (by omega)

/-- Settles O59: the infinities and the patterns carry the sign of the value. -/
theorem roundingKeepsTheSign : Obligations.RoundingKeepsTheSign := by
  have hsign {q : ℚ} (hq : q ≠ 0) : (rnd32 q).getLsbD 31 = decide (q < 0) := by
    by_cases h : pow2 128 ≤ roundedUnits q * ulp q
    · rw [rnd32_eq hq, if_pos h]
      by_cases hneg : q < 0
      · simp [hneg]
      · simp [hneg]
    · obtain ⟨-, -, hsign, -⟩ := rnd32_of_not_overflow hq h
      exact hsign
  refine ⟨fun q hq => ?_, fun q hq => ?_, rfl⟩
  · rw [hsign hq.ne']
    exact decide_eq_false hq.not_gt
  · rw [hsign hq.ne]
    exact decide_eq_true hq

end Sys2Proof.Machine
end

section
/-! PROOFS. Rounding to the nearest pattern (R14). A finite pattern's value is a whole number of the units
of the rounding, or it lies below all values that are normal there, so the nearest whole number of units
is the nearest value. -/

namespace Sys2Proof.Machine

/-- Any other whole number of units is at least half a unit away. -/
theorem half_le_of_ne {q u : ℚ} {k m : Int} (hu : 0 < u) (h : |q - k * u| ≤ u / 2) (hne : m ≠ k) :
    u / 2 ≤ |q - m * u| := by
  have hone : (1 : ℚ) ≤ |(k : ℚ) - m| := by
    have : (1 : Int) ≤ |k - m| := Int.one_le_abs (sub_ne_zero.2 hne.symm)
    exact_mod_cast this
  have hsplit : |(k : ℚ) - m| * u ≤ |q - k * u| + |q - m * u| := by
    calc |(k : ℚ) - m| * u = |(q - m * u) - (q - k * u)| := by
          rw [← abs_of_pos hu, ← abs_mul, abs_of_pos hu]
          congr 1
          ring
      _ ≤ |q - m * u| + |q - k * u| := abs_sub _ _
      _ = |q - k * u| + |q - m * u| := add_comm _ _
  have : u ≤ |(k : ℚ) - m| * u := le_mul_of_one_le_left hu.le hone
  linarith

/-- A value of a pattern's form is a whole number of the units of `q`, or it lies below all values that
are normal there. -/
theorem int_mul_ulp_or_small {q : ℚ} (hq : q ≠ 0) {k j : Int} (hk : |k| < 2 ^ 24)
    (hj : -149 ≤ j) :
    (∃ m : Int, k * pow2 j = m * ulp q) ∨
      (|k * pow2 j| < 2 ^ 23 * ulp q ∧ 2 ^ 23 * ulp q ≤ |q|) := by
  by_cases h : roundExponent q - 23 ≤ j
  · obtain ⟨d, hd⟩ := Int.eq_ofNat_of_zero_le (sub_nonneg.2 h)
    refine .inl ⟨k * 2 ^ d, ?_⟩
    rw [show j = d + (roundExponent q - 23) by omega, pow2_add, pow2_natCast, ulp]
    push_cast
    ring
  · refine .inr ⟨?_, mul_ulp_le_abs hq (by omega)⟩
    have hk' : |(k : ℚ)| < 2 ^ 24 := by exact_mod_cast hk
    calc |k * pow2 j| = |(k : ℚ)| * pow2 j := by rw [abs_mul, abs_of_pos (pow2_pos j)]
      _ < 2 ^ 24 * pow2 j := mul_lt_mul_of_pos_right hk' (pow2_pos j)
      _ ≤ 2 ^ 24 * pow2 (roundExponent q - 24) :=
          mul_le_mul_of_nonneg_left (pow2_le (by omega)) (by norm_num)
      _ = 2 ^ 23 * ulp q := by
          rw [ulp, show roundExponent q - 23 = 1 + (roundExponent q - 24) by ring, pow2_add,
            pow2_eq 1]
          ring

section Nearest

variable {q : ℚ} (hq : q ≠ 0) (hbound : |q| < 2 ^ 128 - 2 ^ 103)
include hq hbound

/-- A rounding below the overflow threshold, in whole units with their sign. -/
theorem rnd32_units : isFinite (rnd32 q) = true ∧
    ∃ k : Int, val32 (rnd32 q) = k * ulp q ∧ |q - k * ulp q| ≤ ulp q / 2 ∧
      (|q - k * ulp q| = ulp q / 2 → (rnd32 q).getLsbD 0 = false) := by
  obtain ⟨hfin, hval, -, hbit⟩ := rnd32_of_not_overflow hq
    (fun h => not_le.2 hbound ((overflow_iff hq).1 h))
  obtain ⟨hhalf, htie⟩ := abs_sub_roundedUnits (q := q)
  refine ⟨hfin, (if q < 0 then -1 else 1) * roundedUnits q, ?_, ?_⟩
  · rw [hval]
    split
    · push_cast; ring
    · push_cast; ring
  · have hdist : |q - ((if q < 0 then -1 else 1) * roundedUnits q : Int) * ulp q| =
        |(|q| - roundedUnits q * ulp q)| := by
      split
      next hneg =>
        rw [abs_of_neg hneg, ← abs_neg]
        push_cast
        congr 1
        ring
      next hpos =>
        rw [abs_of_nonneg (not_lt.1 hpos)]
        push_cast
        congr 1
        ring
    rw [hdist]
    exact ⟨hhalf, fun h => hbit (htie h)⟩

/-- No pattern's value is nearer, and one as near is the result's own value or leaves an even fraction. -/
theorem rnd32_nearest (b : Word32) : |q - val32 (rnd32 q)| ≤ |q - val32 b| ∧
    (|q - val32 (rnd32 q)| = |q - val32 b| →
      val32 b = val32 (rnd32 q) ∨ (rnd32 q).getLsbD 0 = false) := by
  obtain ⟨-, k, hval, hhalf, htie⟩ := rnd32_units hq hbound
  have hnearest (m : Int) : |q - k * ulp q| ≤ |q - m * ulp q| := by
    by_cases hm : m = k
    · rw [hm]
    · exact hhalf.trans (half_le_of_ne ulp_pos hhalf hm)
  obtain ⟨n, hn, hb⟩ := val32_eq_int_mul (b := b)
  rw [hval]
  rcases int_mul_ulp_or_small hq hn (by linarith [exponent_ge b] : -149 ≤ exponent b - 23) with
    ⟨m, hm⟩ | ⟨hsmall, hnormal⟩
  · rw [hb, hm]
    refine ⟨hnearest m, fun heq => ?_⟩
    by_cases hmk : m = k
    · exact .inl (by rw [hmk])
    · exact .inr (htie (le_antisymm hhalf (heq ▸ half_le_of_ne ulp_pos hhalf hmk)))
  · rw [← hb] at hsmall
    obtain ⟨m, hm⟩ : ∃ m : Int, |q - m * ulp q| = |q| - 2 ^ 23 * ulp q := by
      rcases le_total 0 q with hpos | hneg
      · refine ⟨2 ^ 23, ?_⟩
        rw [abs_of_nonneg hpos] at hnormal ⊢
        push_cast
        exact abs_of_nonneg (by linarith)
      · refine ⟨-2 ^ 23, ?_⟩
        rw [abs_of_nonpos hneg] at hnormal ⊢
        push_cast
        rw [abs_of_nonpos (by linarith)]
        ring
    have hlt : |q - k * ulp q| < |q - val32 b| := by
      linarith [hnearest m, abs_sub_abs_le_abs_sub q (val32 b)]
    exact ⟨hlt.le, fun heq => absurd heq hlt.ne⟩

end Nearest

/-- Settles O38: by the value's magnitude against the threshold. -/
theorem roundingIsToNearest : Obligations.RoundingIsToNearest := by
  intro q
  have hpos : (0 : ℚ) < 2 ^ 128 - 2 ^ 103 := by norm_num
  refine ⟨fun hbound => ?_, fun h => ?_, fun h => ?_⟩
  · by_cases hq : q = 0
    · subst hq
      have hzero : val32 (rnd32 0) = 0 := by decide +kernel
      exact ⟨by decide, fun b _ => by simp [hzero]⟩
    · obtain ⟨hfin, -⟩ := rnd32_units hq hbound
      exact ⟨hfin, fun b _ => (rnd32_nearest hq hbound b).1⟩
  · have hq : 0 < q := hpos.trans_le h
    rw [rnd32_eq hq.ne', if_pos ((overflow_iff hq.ne').2 (h.trans (le_abs_self q))),
      if_neg hq.not_gt]
  · have hq : q < 0 := by linarith
    rw [rnd32_eq hq.ne, if_pos ((overflow_iff hq.ne).2 (by linarith [neg_le_abs q])), if_pos hq]

/-- Settles O39: another value as near as the result's leaves an even fraction. -/
theorem roundingTiesToEven : Obligations.RoundingTiesToEven := by
  intro q b hbound _ hne heq
  by_cases hq : q = 0
  · rw [hq]
    decide
  · exact ((rnd32_nearest hq hbound b).2 heq).resolve_left hne

end Sys2Proof.Machine
end

section
/-! PROOFS. Rounding the value of a pattern (R14): it is rounded to itself, and one pattern has it, but for
the two zeros. -/

namespace Sys2Proof.Machine

/-! ### Exact values -/

theorem val32_zero : val32 0#32 = 0 := by decide +kernel

/-- A value of a pattern's form is rounded to itself. -/
theorem val32_rnd32_of_int_mul {k j : Int} (hk : |k| < 2 ^ 24) (hj : -149 ≤ j)
    (hbound : |k * pow2 j| < 2 ^ 128 - 2 ^ 103) : val32 (rnd32 (k * pow2 j)) = k * pow2 j := by
  by_cases hq : k * pow2 j = 0
  · rw [hq]
    exact val32_zero
  · rcases int_mul_ulp_or_small hq hk hj with ⟨m, hm⟩ | ⟨hsmall, hnormal⟩
    · obtain ⟨-, n, hval, hhalf, -⟩ := rnd32_units hq hbound
      have hmn : m = n := by
        by_contra hne
        have := half_le_of_ne ulp_pos hhalf hne
        rw [← hm, sub_self, abs_zero] at this
        linarith [ulp_pos (q := k * pow2 j)]
      rw [hval, ← hmn, ← hm]
    · exact absurd hsmall hnormal.not_gt

theorem val32_rnd32_val32 {b : Word32} (h : isFinite b = true) :
    val32 (rnd32 (val32 b)) = val32 b := by
  have hle := abs_val32_le h
  obtain ⟨k, hk, hb⟩ := val32_eq_int_mul (b := b)
  rw [hb] at hle ⊢
  refine val32_rnd32_of_int_mul hk (by linarith [exponent_ge b]) (hle.trans_lt (by norm_num))

/-! ### A value has one pattern -/

/-- A pattern of a greater exponent is normal, and so greater. -/
theorem abs_val32_lt_of_exponent_lt {b c : Word32} (h : exponent b < exponent c) :
    |val32 b| < |val32 c| := by
  have hnormal : 2 ^ 23 ≤ significand c := by
    by_contra hlt
    have := exponent_eq_of_significand_lt (not_le.1 hlt)
    have := exponent_ge b
    omega
  have hb : (significand b : ℚ) < 2 ^ 24 := by exact_mod_cast significand_lt b
  have hc : (2 : ℚ) ^ 23 ≤ significand c := by exact_mod_cast hnormal
  rw [abs_val32, abs_val32]
  calc significand b * pow2 (exponent b - 23)
      < 2 ^ 24 * pow2 (exponent b - 23) := mul_lt_mul_of_pos_right hb (pow2_pos _)
    _ = 2 ^ 23 * pow2 (1 + (exponent b - 23)) := by rw [pow2_add, pow2_eq 1]; ring
    _ ≤ 2 ^ 23 * pow2 (exponent c - 23) :=
        mul_le_mul_of_nonneg_left (pow2_le (by omega)) (by norm_num)
    _ ≤ significand c * pow2 (exponent c - 23) := mul_le_mul_of_nonneg_right hc (pow2_pos _).le

theorem significand_exponent_of_abs_val32_eq {b c : Word32} (h : |val32 b| = |val32 c|) :
    significand b = significand c ∧ exponent b = exponent c := by
  have hexp : exponent b = exponent c := by
    rcases lt_trichotomy (exponent b) (exponent c) with hlt | heq | hgt
    · exact absurd h (abs_val32_lt_of_exponent_lt hlt).ne
    · exact heq
    · exact absurd h (abs_val32_lt_of_exponent_lt hgt).ne'
  rw [abs_val32, abs_val32, hexp] at h
  exact ⟨by exact_mod_cast mul_right_cancel₀ (pow2_pos _).ne' h, hexp⟩

theorem fields_of_significand_exponent {b c : Word32} (hsig : significand b = significand c)
    (hexp : exponent b = exponent c) : f32Exp b = f32Exp c ∧ f32Frac b = f32Frac c := by
  have hb : f32Frac b < 2 ^ 23 := Nat.mod_lt _ (by decide)
  have hc : f32Frac c < 2 ^ 23 := Nat.mod_lt _ (by decide)
  unfold significand at hsig
  unfold exponent at hexp
  split at hsig
  next hb0 =>
    split at hsig
    next hc0 => exact ⟨hb0.trans hc0.symm, hsig⟩
    next => omega
  next hb0 =>
    split at hsig
    next => omega
    next hc0 =>
      rw [if_neg hb0, if_neg hc0] at hexp
      omega

theorem f32Sign_eq {b : Word32} (h : val32 b ≠ 0) : f32Sign b = decide (val32 b < 0) := by
  have hpos : 0 < |val32 b| := abs_pos.2 h
  rw [abs_val32] at hpos
  rw [val32_eq]
  cases f32Sign b with
  | true => simpa using hpos
  | false => simpa using hpos.le

theorem eq_of_val32_eq {b c : Word32} (h : val32 b = val32 c) (hne : val32 b ≠ 0) : b = c := by
  obtain ⟨hsig, hexp⟩ := significand_exponent_of_abs_val32_eq (congrArg abs h)
  obtain ⟨hE, hM⟩ := fields_of_significand_exponent hsig hexp
  rw [eq_of_fields b, eq_of_fields c, f32Sign_eq hne, f32Sign_eq (h ▸ hne), h, hE, hM]

/-- The two zeros. -/
theorem eq_zero_of_val32_eq_zero {b : Word32} (h : val32 b = 0) : b = 0#32 ∨ b = 0x80000000#32 := by
  obtain ⟨hsig, hexp⟩ := significand_exponent_of_abs_val32_eq (b := b) (c := 0#32)
    (by rw [h, val32_zero])
  obtain ⟨hE, hM⟩ := fields_of_significand_exponent hsig hexp
  rw [eq_of_fields b, hE, hM]
  cases f32Sign b with
  | true => exact .inr (by decide)
  | false => exact .inl (by decide)

/-- Settles O40: the value is rounded to itself, and one pattern has it but for the two zeros. -/
theorem roundingIsExactOnValues : Obligations.RoundingIsExactOnValues := by
  refine ⟨fun b hfin hb => ?_, by decide +kernel⟩
  by_cases hzero : val32 b = 0
  · rw [hzero, (eq_zero_of_val32_eq_zero hzero).resolve_right hb]
    rfl
  · have hval := val32_rnd32_val32 hfin
    exact eq_of_val32_eq hval (hval.trans_ne hzero)

end Sys2Proof.Machine
end

section
/-! PROOFS. The block transformer (R171 to R175). The two commands write a group of F
registers. The round trip of R173 is exact because every value it meets is a multiple of `2^-24` in
[-1,1], which rounding keeps. -/

namespace Sys2Proof.Machine

open Sys2Proof.Claims

/-! ### Commands that write a group of F registers -/

theorem completes_of_writeFs {i : Instr} {s : State} {reads : List RegName}
    {body : State → Except ErrKind State} {fd : Reg} {bs : List Word32} {post : State → Prop}
    (hexec : exec i s = runCommand i reads body s) (hwf : i.wf = true)
    (hfits : fd.val + bs.length ≤ 32)
    (hok : body (s.noteReads reads) = .ok ((s.noteReads reads).writeFs fd bs))
    (hpost : ∀ t : State,
      (∀ (k : Nat) (hk : k < bs.length), t.readF (groupReg fd k) = bs[k]) → post t) :
    Completes i s noReg (inGroup fd bs.length) post :=
  ⟨_, by rw [hexec, runCommand_done hwf hok], registersOnly_writeFs s reads fd bs hfits,
    hpost _ fun _ hk => readF_writeFs_member (s.noteReads reads) hfits hk⟩

theorem groupFits_and {p q : Reg} {m n : Nat} (hp : p.val + m ≤ 32) (hq : q.val + n ≤ 32) :
    (groupFits p m && groupFits q n) = true := by
  simp [groupFits, hp, hq]

theorem groupFinite_iff (t : State) (base : Reg) (n : Nat) :
    groupFinite t base n = true ↔ ∀ k < n, isFinite (t.readF (groupReg base k)) = true := by
  simp [groupFinite, groupF]

/-! ### DCT.FWD, DCT.INV -/

/-- Settles O48: past the finiteness check each destination holds one rounded combination. -/
theorem dctFwdResult : Obligations.DctFwdResult := by
  intro s fd fs hfd hfs v
  have hwf : (Instr.dctFwd fd fs).wf = true := groupFits_and (by omega) (by omega)
  constructor
  · intro hfin
    refine completes_of_writeFs (exec_dctFwd s fd fs) hwf (Nat.add_le_add_right hfd 6)
      (if_pos ((groupFinite_iff s fs 12).2 hfin)) fun t ht => ?_
    exact ⟨ht 0 (by simp), ht 1 (by simp), ht 2 (by simp), ht 3 (by simp), ht 4 (by simp),
      ht 5 (by simp)⟩
  · intro hinf
    refine raises_of_body_error (exec_dctFwd s fd fs) hwf (if_neg ?_)
    exact Bool.eq_false_iff.1 ((groupFinite_eq_false_iff s fs 12).2 hinf)

/-- Settles O49: as O48, with the chroma patterns copied. -/
theorem dctInvResult : Obligations.DctInvResult := by
  intro s fd fs hfd hfs v
  have hwf : (Instr.dctInv fd fs).wf = true := groupFits_and (by omega) (by omega)
  constructor
  · intro hfin
    refine completes_of_writeFs (exec_dctInv s fd fs) hwf (Nat.add_le_add_right hfd 12)
      (if_pos ((groupFinite_iff s fs 6).2 hfin)) fun t ht => ?_
    refine ⟨ht 0 (by simp), ht 3 (by simp), ht 6 (by simp), ht 9 (by simp), fun p hp => ?_⟩
    interval_cases p
    · exact ⟨ht 1 (by simp), ht 2 (by simp)⟩
    · exact ⟨ht 4 (by simp), ht 5 (by simp)⟩
    · exact ⟨ht 7 (by simp), ht 8 (by simp)⟩
    · exact ⟨ht 10 (by simp), ht 11 (by simp)⟩
  · intro hinf
    refine raises_of_body_error (exec_dctInv s fd fs) hwf (if_neg ?_)
    exact Bool.eq_false_iff.1 ((groupFinite_eq_false_iff s fs 6).2 hinf)

/-- Settles O50: each entry of the two products is a linear identity. -/
theorem lumaMatricesAreInverse : Obligations.LumaMatricesAreInverse := by
  constructor
  · rintro ⟨y1, y2, y3, y4⟩
    simp only [inverseLuma, forwardLuma, LumaQuad.mk.injEq]
    refine ⟨?_, ?_, ?_, ?_⟩ <;> ring
  · rintro ⟨a, b, c, d⟩
    simp only [inverseLuma, forwardLuma, LumaCoeffs.mk.injEq]
    refine ⟨?_, ?_, ?_, ?_⟩ <;> ring

/-! ### The round trip (R173) -/

/-- A multiple of `2^-24` in [-1,1] is rounded to itself; 1 is also a multiple of `2^-23`. -/
theorem val32_rnd32_of_eq_div {q : ℚ} {k : Int} (hq : q = k / 2 ^ 24) (hk : |k| ≤ 2 ^ 24) :
    val32 (rnd32 q) = q := by
  have hpow : pow2 (-24) = 1 / 2 ^ 24 := by rw [pow2_eq]; norm_num
  rcases hk.lt_or_eq with hlt | heq
  · have hvalue : q = k * pow2 (-24) := by rw [hq, hpow]; ring
    have hk' : |(k : ℚ)| < 2 ^ 24 := by exact_mod_cast hlt
    rw [hvalue]
    refine val32_rnd32_of_int_mul hlt (by decide) ?_
    rw [abs_mul, abs_of_pos (pow2_pos _), hpow]
    linarith
  · rw [hq]
    rcases (abs_eq (by norm_num)).1 heq with rfl | rfl
    · decide +kernel
    · decide +kernel

theorem isFinite_rnd32 {q : ℚ} (h : |q| ≤ 2 ^ 128 - 2 ^ 104) : isFinite (rnd32 q) = true :=
  ((roundingIsToNearest q).1 (h.trans_lt (by norm_num))).1

/-- A quarter of four finite values, whatever their signs, does not overflow. -/
theorem isFinite_rnd32_quarter {b1 b2 b3 b4 : Word32} {q : ℚ} (h1 : isFinite b1 = true)
    (h2 : isFinite b2 = true) (h3 : isFinite b3 = true) (h4 : isFinite b4 = true)
    (hq : |q| ≤ (|val32 b1| + |val32 b2| + |val32 b3| + |val32 b4|) / 4) :
    isFinite (rnd32 q) = true := by
  have := abs_val32_le h1
  have := abs_val32_le h2
  have := abs_val32_le h3
  have := abs_val32_le h4
  exact isFinite_rnd32 (by linarith)

theorem abs_quarter_sum_le (w x y z : ℚ) :
    |(w + x + y + z) / 4| ≤ (|w| + |x| + |y| + |z|) / 4 := by
  rw [abs_div, abs_of_pos (by norm_num : (0 : ℚ) < 4)]
  have := abs_add_le (w + x + y) z
  have := abs_add_le (w + x) y
  have := abs_add_le w x
  linarith

theorem abs_quarter_sub_le (w x y z : ℚ) :
    |(w + x - y - z) / 4| ≤ (|w| + |x| + |y| + |z|) / 4 := by
  simpa [sub_eq_add_neg] using abs_quarter_sum_le w x (-y) (-z)

/-- What DCT.FWD leaves in FG(fc, 6) (R171). -/
def HoldsForward (s t : State) (fs fc : Reg) : Prop :=
  let v := fun k => val32 (s.readF (groupReg fs k))
  t.readF (groupReg fc 0) = rnd32 ((v 0 + v 3 + v 6 + v 9) / 4) ∧
  t.readF (groupReg fc 1) = rnd32 ((v 6 + v 9 - v 0 - v 3) / 4) ∧
  t.readF (groupReg fc 2) = rnd32 ((v 3 + v 9 - v 0 - v 6) / 4) ∧
  t.readF (groupReg fc 3) = rnd32 ((v 0 + v 9 - v 3 - v 6) / 4) ∧
  t.readF (groupReg fc 4) = rnd32 ((v 1 + v 4 + v 7 + v 10) / 4) ∧
  t.readF (groupReg fc 5) = rnd32 ((v 2 + v 5 + v 8 + v 11) / 4)

theorem HoldsForward.finite {s t : State} {fs fc : Reg} (h : HoldsForward s t fs fc)
    (hfin : ∀ k < 12, isFinite (s.readF (groupReg fs k)) = true) :
    ∀ k < 6, isFinite (t.readF (groupReg fc k)) = true := by
  have f (k : Nat) (hk : k < 12 := by decide) := hfin k hk
  obtain ⟨ha, hb, hc, hd, hpB, hpR⟩ := h
  intro k hk
  interval_cases k
  · exact ha ▸ isFinite_rnd32_quarter (f 0) (f 3) (f 6) (f 9) (abs_quarter_sum_le _ _ _ _)
  · exact hb ▸ isFinite_rnd32_quarter (f 6) (f 9) (f 0) (f 3) (abs_quarter_sub_le _ _ _ _)
  · exact hc ▸ isFinite_rnd32_quarter (f 3) (f 9) (f 0) (f 6) (abs_quarter_sub_le _ _ _ _)
  · exact hd ▸ isFinite_rnd32_quarter (f 0) (f 9) (f 3) (f 6) (abs_quarter_sub_le _ _ _ _)
  · exact hpB ▸ isFinite_rnd32_quarter (f 1) (f 4) (f 7) (f 10) (abs_quarter_sum_le _ _ _ _)
  · exact hpR ▸ isFinite_rnd32_quarter (f 2) (f 5) (f 8) (f 11) (abs_quarter_sum_le _ _ _ _)

/-- The luma quad in FG(fs, 12) (R45). -/
def lumaOf (s : State) (fs : Reg) : LumaQuad where
  y1 := val32 (s.readF (groupReg fs 0))
  y2 := val32 (s.readF (groupReg fs 3))
  y3 := val32 (s.readF (groupReg fs 6))
  y4 := val32 (s.readF (groupReg fs 9))

/-- The luma coefficients in FG(fc, 6) (R45). -/
def coeffsOf (s : State) (fc : Reg) : LumaCoeffs where
  a := val32 (s.readF (groupReg fc 0))
  b := val32 (s.readF (groupReg fc 1))
  c := val32 (s.readF (groupReg fc 2))
  d := val32 (s.readF (groupReg fc 3))

/-- Every luma value of the quad is a multiple of `2^-22` in [0,1], as R173 asks. -/
def LumaQuad.IsExact (q : LumaQuad) : Prop :=
  ∃ n1 n2 n3 n4 : Nat, (n1 ≤ 2 ^ 22 ∧ n2 ≤ 2 ^ 22 ∧ n3 ≤ 2 ^ 22 ∧ n4 ≤ 2 ^ 22) ∧
    q.y1 = n1 / 2 ^ 22 ∧ q.y2 = n2 / 2 ^ 22 ∧ q.y3 = n3 / 2 ^ 22 ∧ q.y4 = n4 / 2 ^ 22

/-- The coefficients of such a quad are multiples of `2^-24` in [-1,1]. -/
theorem val32_rnd32_forwardLuma {q : LumaQuad} (h : q.IsExact) :
    val32 (rnd32 (forwardLuma q).a) = (forwardLuma q).a ∧
      val32 (rnd32 (forwardLuma q).b) = (forwardLuma q).b ∧
      val32 (rnd32 (forwardLuma q).c) = (forwardLuma q).c ∧
      val32 (rnd32 (forwardLuma q).d) = (forwardLuma q).d := by
  obtain ⟨n1, n2, n3, n4, ⟨h1, h2, h3, h4⟩, e1, e2, e3, e4⟩ := h
  refine ⟨val32_rnd32_of_eq_div (k := n1 + n2 + n3 + n4) ?_ (abs_le.2 (by omega)),
    val32_rnd32_of_eq_div (k := n3 + n4 - n1 - n2) ?_ (abs_le.2 (by omega)),
    val32_rnd32_of_eq_div (k := n2 + n4 - n1 - n3) ?_ (abs_le.2 (by omega)),
    val32_rnd32_of_eq_div (k := n1 + n4 - n2 - n3) ?_ (abs_le.2 (by omega))⟩
  all_goals
    simp only [forwardLuma, e1, e2, e3, e4]
    push_cast
    ring

/-- Rounding keeps the values of such a quad too. -/
theorem val32_rnd32_luma {y : ℚ} {n : Nat} (hn : n ≤ 2 ^ 22) (hy : y = n / 2 ^ 22) :
    val32 (rnd32 y) = y :=
  val32_rnd32_of_eq_div (k := 4 * n) (by rw [hy]; push_cast; ring) (abs_le.2 (by omega))

theorem HoldsForward.coeffsOf_eq {s t : State} {fs fc : Reg} (h : HoldsForward s t fs fc)
    (hexact : (lumaOf s fs).IsExact) : coeffsOf t fc = forwardLuma (lumaOf s fs) := by
  obtain ⟨ha, hb, hc, hd, -⟩ := h
  obtain ⟨ea, eb, ec, ed⟩ := val32_rnd32_forwardLuma hexact
  simp only [coeffsOf, ha, hb, hc, hd]
  simp only [forwardLuma, lumaOf] at ea eb ec ed ⊢
  simp only [ea, eb, ec, ed]

/-- Settles O51: neither command rounds, so the inverse matrix undoes the forward one. -/
theorem dctRoundTripIsExact : Obligations.DctRoundTripIsExact := by
  intro s fc fs fd hfc hfs hfd hfin hluma
  obtain ⟨n1, hn1, h1⟩ := hluma 0 (by decide)
  obtain ⟨n2, hn2, h2⟩ := hluma 1 (by decide)
  obtain ⟨n3, hn3, h3⟩ := hluma 2 (by decide)
  obtain ⟨n4, hn4, h4⟩ := hluma 3 (by decide)
  obtain ⟨t, ht, hregs, hforward⟩ := (dctFwdResult s fc fs hfc hfs).1 hfin
  obtain ⟨u, hu, hregs', hy1, hy2, hy3, hy4, -⟩ :=
    (dctInvResult t fd fc hfd hfc).1 (HoldsForward.finite hforward hfin)
  refine ⟨t, u, ht, hu, by simp [hregs'.done, hregs.done], ?_⟩
  have hquad : inverseLuma (coeffsOf t fc) = lumaOf s fs := by
    rw [HoldsForward.coeffsOf_eq hforward
      ⟨n1, n2, n3, n4, ⟨hn1, hn2, hn3, hn4⟩, h1, h2, h3, h4⟩, lumaMatricesAreInverse.1]
  simp only [inverseLuma, coeffsOf, lumaOf, LumaQuad.mk.injEq] at hquad
  obtain ⟨q1, q2, q3, q4⟩ := hquad
  rw [q1] at hy1
  rw [q2] at hy2
  rw [q3] at hy3
  rw [q4] at hy4
  intro p hp
  interval_cases p
  · exact (congrArg val32 hy1).trans (val32_rnd32_luma hn1 h1)
  · exact (congrArg val32 hy2).trans (val32_rnd32_luma hn2 h2)
  · exact (congrArg val32 hy3).trans (val32_rnd32_luma hn3 h3)
  · exact (congrArg val32 hy4).trans (val32_rnd32_luma hn4 h4)

end Sys2Proof.Machine
end

section
/-! PROOFS. CC.FWD (R180, R182). Channels up to DENOM are ratios in [0,1], so luma lies in [0,1] and no
chroma difference is above 1/2 in size; on a grey pixel both differences cancel. -/

namespace Sys2Proof.Machine

open Sys2Proof.Claims

/-- The coefficients of R180 as the spec writes them. -/
theorem toComponent_eq (r g b : ℚ) :
    toComponent ⟨r, g, b⟩ =
      ⟨0.299 * r + 0.587 * g + 0.114 * b, -0.168736 * r - 0.331264 * g + 0.5 * b,
        0.5 * r - 0.418688 * g - 0.081312 * b⟩ := by
  norm_num [toComponent]

/-- The ranges of R182, from channels in [0,1]. -/
theorem component_ranges {r g b : ℚ} (hr : 0 ≤ r ∧ r ≤ 1) (hg : 0 ≤ g ∧ g ≤ 1)
    (hb : 0 ≤ b ∧ b ≤ 1) :
    0 ≤ 0.299 * r + 0.587 * g + 0.114 * b ∧ 0.299 * r + 0.587 * g + 0.114 * b ≤ 1 ∧
      |-0.168736 * r - 0.331264 * g + 0.5 * b| ≤ 1 / 2 ∧
      |0.5 * r - 0.418688 * g - 0.081312 * b| ≤ 1 / 2 := by
  obtain ⟨hr0, hr1⟩ := hr
  obtain ⟨hg0, hg1⟩ := hg
  obtain ⟨hb0, hb1⟩ := hb
  exact ⟨by linarith, by linarith, abs_le.2 ⟨by linarith, by linarith⟩,
    abs_le.2 ⟨by linarith, by linarith⟩⟩

theorem channel_ratio_mem {ch D : Nat} (hD : 0 < D) (h : ch ≤ D) :
    0 ≤ (ch : ℚ) / D ∧ (ch : ℚ) / D ≤ 1 := by
  have hD' : (0 : ℚ) < D := by exact_mod_cast hD
  exact ⟨by positivity, (div_le_one hD').2 (by exact_mod_cast h)⟩

/-- Settles O52: legal channels pass every check, the one on y included; the other two fail with one
error. -/
theorem ccFwdResult : Obligations.CcFwdResult := by
  refine ⟨by norm_num, ?_⟩
  intro s fd xs hfd hxs D ch r g b y pB pR
  have hwf : (Instr.ccFwd fd xs).wf = true := groupFits_and (by omega) (by omega)
  constructor
  · intro hD hch
    have hranges := component_ranges (channel_ratio_mem hD (hch 0 (by decide)))
      (channel_ratio_mem hD (hch 1 (by decide))) (channel_ratio_mem hD (hch 2 (by decide)))
    refine ⟨hranges, ?_⟩
    obtain ⟨hy0, hy1, -⟩ := hranges
    refine completes_of_writeFs (exec_ccFwd s fd xs) hwf (Nat.add_le_add_right hfd 3)
      (bs := [rnd32 y, rnd32 pB, rnd32 pR]) ?_ fun t ht => ?_
    · have hno : ¬∃ k < 3, D < (s.readX (groupReg xs k)).toNat := fun ⟨k, hk, hlt⟩ =>
        absurd (hch k hk) (not_le.2 hlt)
      rw [exists_channel_iff] at hno
      simp only [toComponent_eq]
      refine (if_neg hD.ne').trans ((if_neg hno).trans ?_)
      simp only [y, pB, pR, r, ch, groupReg_zero] at hy0 hy1 ⊢
      exact if_neg (not_or.2 ⟨not_lt.2 hy0, not_lt.2 hy1⟩)
    · exact ⟨ht 0 (by simp), ht 1 (by simp), ht 2 (by simp)⟩
  · intro h
    refine raises_of_body_error (exec_ccFwd s fd xs) hwf ?_
    by_cases hD : uint s.denom = 0
    · exact if_pos hD
    · exact (if_neg hD).trans (if_pos ((exists_channel_iff s xs _).1 (h.resolve_left hD)))

/-- Settles O53: with one ratio for all three channels the coefficients add to 1, 0 and 0. -/
theorem greyPixelsHaveNoChroma : Obligations.GreyPixelsHaveNoChroma := by
  intro s fd xs hfd hxs hD hgrey hle
  obtain ⟨-, t, hexec, -, hy, hpB, hpR⟩ := (ccFwdResult.2 s fd xs hfd hxs).1 hD fun k hk =>
    (congrArg BitVec.toNat (hgrey k hk)).trans_le hle
  simp only [hgrey 0 (by decide), hgrey 1 (by decide), hgrey 2 (by decide)] at hy hpB hpR
  generalize hx : ((s.readX xs).toNat : ℚ) / s.denom.toNat = x at hy hpB hpR ⊢
  have hluma : 0.299 * x + 0.587 * x + 0.114 * x = x := by ring
  have hblue : -0.168736 * x - 0.331264 * x + 0.5 * x = 0 := by ring
  have hred : 0.5 * x - 0.418688 * x - 0.081312 * x = 0 := by ring
  rw [hluma] at hy
  rw [hblue] at hpB
  rw [hred] at hpR
  refine ⟨t, hexec, hy, hpB, hpR, fun hwhite => ?_⟩
  have hone : x = 1 := by
    rw [← hx, hwhite]
    exact div_self (by exact_mod_cast hD.ne')
  rw [hy, hone]
  decide +kernel

end Sys2Proof.Machine
end
